-- ==== Sys2Proof/Word.lean ====
section
/-! DEFINITION. The item types of the block (00_scope.md R6, R8; 30_encoding.md R58): symbols, codes, text units,
status words, command words and symbol sequences. Every quantity is unsigned (R8). -/

namespace Sys2Proof

/-- A symbol: "an unsigned 8-bit value (0-255)" (R6, R58). -/
abbrev Symbol := BitVec 8

/-- A code: a 16-bit value, 0 to 65535 (R6, R58). -/
abbrev Code := BitVec 16

/-- A text unit: a bare 16-bit value (R58, R95). -/
abbrev TextUnit := BitVec 16

/-- A 32-bit word read from a status register (R21, R50). -/
abbrev StatusWord := BitVec 32

/-- A 32-bit command word (R45, R46). -/
abbrev CommandWord := BitVec 32

/-- The spec's `Seq`: a finite sequence of symbols, index 0 first (R8); unbounded in the model (R7, D11).
`ε` is `[]`; two sequences are equal when they have the same length and the same symbol at each index. -/
abbrev SymSeq := List Symbol

end Sys2Proof
end

