-- ==== Sys2Proof/Syntax.lean ====
section
/-! DEFINITION. The command set: one constructor per row of spec/opcode_table.json (30_encoding.md R49), with every operand
at exactly the width its format gives it (R47, R48), and the assembler's source form of a command (R55), whose operand is a
plain number that may or may not fit. -/

namespace Sys2Proof

/-- What RD.STAT's `sel` bit selects: 0 is ESTAT, 1 is DSTAT (R100). -/
inductive StatusReg where
  | estat
  | dstat
  deriving DecidableEq, Repr

/-- The nine commands (R49). The four Code Table primitives and RESET have no encoding and are no commands (R57). -/
inductive Instr where
  /-- ENC.START (R70) -/
  | encStart
  /-- ENC.SYM `c` (R71) -/
  | encSym (c : Symbol)
  /-- ENC.END (R72) -/
  | encEnd
  /-- DEC.START (R80) -/
  | decStart
  /-- DEC.CODE `k` (R81) -/
  | decCode (k : Code)
  /-- DEC.END (R82) -/
  | decEnd
  /-- STC.PACK `k` (R90) -/
  | stcPack (k : Code)
  /-- STC.UNPACK `u` (R91) -/
  | stcUnpack (u : TextUnit)
  /-- RD.STAT `sel` (R100) -/
  | rdStat (sel : StatusReg)
  deriving DecidableEq, Repr

/-- The mnemonics of R49. -/
inductive Mnemonic where
  | encStart | encSym | encEnd | decStart | decCode | decEnd | stcPack | stcUnpack | rdStat
  deriving DecidableEq, Repr

/-- The four operand formats of R47. -/
inductive Format where
  /-- no operand -/
  | Z
  /-- an 8-bit symbol -/
  | S
  /-- a 16-bit code or text unit -/
  | K
  /-- a 1-bit selector -/
  | R
  deriving DecidableEq, Repr

/-- The piece of the block a command addresses: the high nibble of `opc` groups the commands so (R49). -/
inductive Piece where
  | enc | dec | stc | status
  deriving DecidableEq, Repr

/-- A command's mnemonic. -/
def Instr.mnemonic : Instr → Mnemonic
  | .encStart => .encStart
  | .encSym _ => .encSym
  | .encEnd => .encEnd
  | .decStart => .decStart
  | .decCode _ => .decCode
  | .decEnd => .decEnd
  | .stcPack _ => .stcPack
  | .stcUnpack _ => .stcUnpack
  | .rdStat _ => .rdStat

/-- The format of each mnemonic (R47, R49). -/
def Mnemonic.format : Mnemonic → Format
  | .encStart | .encEnd | .decStart | .decEnd => .Z
  | .encSym => .S
  | .decCode | .stcPack | .stcUnpack => .K
  | .rdStat => .R

/-- The piece each mnemonic addresses (R49; R31 says which table each piece reaches). -/
def Mnemonic.piece : Mnemonic → Piece
  | .encStart | .encSym | .encEnd => .enc
  | .decStart | .decCode | .decEnd => .dec
  | .stcPack | .stcUnpack => .stc
  | .rdStat => .status

/-- The piece a command addresses. -/
def Instr.piece (i : Instr) : Piece := i.mnemonic.piece

/-- One command as an assembler line writes it (R55): a mnemonic and, where the line has one, an operand. -/
structure SourceCommand where
  mnemonic : Mnemonic
  operand  : Option Nat
  deriving DecidableEq, Repr

/-- The source form of a command: the numeric value of its operand (R48, R55). -/
def SourceCommand.ofInstr : Instr → SourceCommand
  | .encStart => ⟨.encStart, none⟩
  | .encSym c => ⟨.encSym, some c.toNat⟩
  | .encEnd => ⟨.encEnd, none⟩
  | .decStart => ⟨.decStart, none⟩
  | .decCode k => ⟨.decCode, some k.toNat⟩
  | .decEnd => ⟨.decEnd, none⟩
  | .stcPack k => ⟨.stcPack, some k.toNat⟩
  | .stcUnpack u => ⟨.stcUnpack, some u.toNat⟩
  | .rdStat .estat => ⟨.rdStat, some 0⟩
  | .rdStat .dstat => ⟨.rdStat, some 1⟩

end Sys2Proof
end

