-- ==== Sys2Proof/WellFormed.lean ====
section
/-! DEFINITION. The well-formedness check of a command as the assembler sees it (30_encoding.md R47, R48, R55): "The
assembler refuses an operand that does not fit the format (a symbol above 255, a code above 65535, a selector above 1)".
An `Instr` carries its operand at the exact width, so a decoded command always passes; a source command may not. -/

namespace Sys2Proof

/-- Does an operand, present or not, fit a format (R47, R55)? -/
def Format.fits : Format → Option Nat → Bool
  | .Z, none => true
  | .Z, some _ => false
  | .S, some n => decide (n ≤ 255)
  | .K, some n => decide (n ≤ 65535)
  | .R, some n => decide (n ≤ 1)
  | .S, none => false
  | .K, none => false
  | .R, none => false

/-- The check of one source command (R55). -/
def SourceCommand.wellFormed (c : SourceCommand) : Bool := c.mnemonic.format.fits c.operand

/-- The same check of a command: its operand, as a number, fits its format. -/
def Instr.wellFormed (i : Instr) : Bool := (SourceCommand.ofInstr i).wellFormed

/-- The command a source command stands for, refused (`none`) exactly when it is not well formed (R55, R48: no shift,
scale, sign extension or truncation). -/
def SourceCommand.toInstr (c : SourceCommand) : Option Instr :=
  if c.wellFormed then
    match c.mnemonic, c.operand with
    | .encStart, _ => some .encStart
    | .encSym, some n => some (.encSym (BitVec.ofNat 8 n))
    | .encSym, none => none
    | .encEnd, _ => some .encEnd
    | .decStart, _ => some .decStart
    | .decCode, some n => some (.decCode (BitVec.ofNat 16 n))
    | .decCode, none => none
    | .decEnd, _ => some .decEnd
    | .stcPack, some n => some (.stcPack (BitVec.ofNat 16 n))
    | .stcPack, none => none
    | .stcUnpack, some n => some (.stcUnpack (BitVec.ofNat 16 n))
    | .stcUnpack, none => none
    | .rdStat, some 0 => some (.rdStat .estat)
    | .rdStat, some _ => some (.rdStat .dstat)
    | .rdStat, none => none
  else none

end Sys2Proof
end

