-- ==== Sys2Proof/Decode.lean ====
section
/-! DEFINITION. The decoder and the encoder of command words (30_encoding.md R46 to R49, R52 to R54). The decoder is total on
the 2^32 words and rejects an illegal word by name; the names are the five cases R52 lists and are not visible to the host,
which sees ERR_ILLEGAL for each. A command word is one 32-bit item without a byte order (20_memory.md R36, D12). -/

namespace Sys2Proof

/-- Why a word is illegal: the cases of R52. -/
inductive IllegalWord where
  /-- `opc` is none of the nine values -/
  | unknownOpcode
  /-- the `zero` field, bits 23:16, is not 0 -/
  | zeroFieldNotZero
  /-- format Z with a non-zero `opd` -/
  | operandNotZero
  /-- format S with a non-zero `opd[15:8]` -/
  | symbolHighByteNotZero
  /-- format R with a non-zero `opd[15:1]` -/
  | selectorHighBitsNotZero
  deriving DecidableEq, Repr

/-- The field `opc`, bits 31:24 (R46). -/
def opcField (w : CommandWord) : BitVec 8 := w.extractLsb' 24 8

/-- The field `zero`, bits 23:16 (R46). -/
def zeroField (w : CommandWord) : BitVec 8 := w.extractLsb' 16 8

/-- The field `opd`, bits 15:0 (R46). -/
def opdField (w : CommandWord) : BitVec 16 := w.extractLsb' 0 16

/-- `opd[15:8]` (R47). -/
def opdHighByte (v : BitVec 16) : BitVec 8 := v.extractLsb' 8 8

/-- `opd[7:0]`, the symbol of format S (R47, R48). -/
def opdLowByte (v : BitVec 16) : BitVec 8 := v.extractLsb' 0 8

/-- `opd[15:1]`, zero in format R (R47). -/
def opdHighBits (v : BitVec 16) : BitVec 15 := v.extractLsb' 1 15

/-- `opd[0]`, the selector of format R (R47, R48, R100). -/
def opdSelector (v : BitVec 16) : StatusReg := if v.getLsbD 0 then .dstat else .estat

/-- Format Z: the operand field must be 0 (R47). -/
def decodeZ (v : BitVec 16) (i : Instr) : Except IllegalWord Instr :=
  if v = 0#16 then .ok i else .error .operandNotZero

/-- Format S: the high byte must be 0 and the low byte is the symbol (R47, R48). -/
def decodeS (v : BitVec 16) (mk : Symbol → Instr) : Except IllegalWord Instr :=
  if opdHighByte v = 0#8 then .ok (mk (opdLowByte v)) else .error .symbolHighByteNotZero

/-- Format K: the whole field is the code or text unit (R47, R48). -/
def decodeK (v : BitVec 16) (mk : BitVec 16 → Instr) : Except IllegalWord Instr := .ok (mk v)

/-- Format R: bits 15:1 must be 0 and bit 0 is the selector (R47, R48). -/
def decodeR (v : BitVec 16) (mk : StatusReg → Instr) : Except IllegalWord Instr :=
  if opdHighBits v = 0#15 then .ok (mk (opdSelector v)) else .error .selectorHighBitsNotZero

/-- The decoder (R49, R52): exactly one command or illegal, from the word alone (R123). -/
def decode (w : CommandWord) : Except IllegalWord Instr :=
  if zeroField w = 0#8 then
    match (opcField w).toNat with
    | 0x01 => decodeZ (opdField w) .encStart
    | 0x02 => decodeS (opdField w) .encSym
    | 0x03 => decodeZ (opdField w) .encEnd
    | 0x11 => decodeZ (opdField w) .decStart
    | 0x12 => decodeK (opdField w) .decCode
    | 0x13 => decodeZ (opdField w) .decEnd
    | 0x21 => decodeK (opdField w) .stcPack
    | 0x22 => decodeK (opdField w) .stcUnpack
    | 0x30 => decodeR (opdField w) .rdStat
    | _ => .error .unknownOpcode
  else .error .zeroFieldNotZero

/-- A command word from its fields, the `zero` field 0 (R46). -/
def commandWord (opc : BitVec 8) (opd : BitVec 16) : CommandWord := opc ++ 0#8 ++ opd

/-- The operand field of a selector (R47, R100). -/
def selectorOperand : StatusReg → BitVec 16
  | .estat => 0#16
  | .dstat => 1#16

/-- The encoder: the one word of a command (R47, R48, R49). -/
def encode : Instr → CommandWord
  | .encStart => commandWord 0x01#8 0#16
  | .encSym c => commandWord 0x02#8 (c.setWidth 16)
  | .encEnd => commandWord 0x03#8 0#16
  | .decStart => commandWord 0x11#8 0#16
  | .decCode k => commandWord 0x12#8 k
  | .decEnd => commandWord 0x13#8 0#16
  | .stcPack k => commandWord 0x21#8 k
  | .stcUnpack u => commandWord 0x22#8 u
  | .rdStat sel => commandWord 0x30#8 (selectorOperand sel)

/-- One row of the opcode map (R49). -/
structure OpcodeRow where
  mnemonic : Mnemonic
  pattern  : BitVec 32
  mask     : BitVec 32
  deriving DecidableEq, Repr

/-- The opcode map as R49 and spec/opcode_table.json write it: a second reading of the encoding, by match and mask. -/
def opcodeMap : List OpcodeRow :=
  [ ⟨.encStart, 0x01000000#32, 0xFFFFFFFF#32⟩,
    ⟨.encSym, 0x02000000#32, 0xFFFFFF00#32⟩,
    ⟨.encEnd, 0x03000000#32, 0xFFFFFFFF#32⟩,
    ⟨.decStart, 0x11000000#32, 0xFFFFFFFF#32⟩,
    ⟨.decCode, 0x12000000#32, 0xFFFF0000#32⟩,
    ⟨.decEnd, 0x13000000#32, 0xFFFFFFFF#32⟩,
    ⟨.stcPack, 0x21000000#32, 0xFFFF0000#32⟩,
    ⟨.stcUnpack, 0x22000000#32, 0xFFFF0000#32⟩,
    ⟨.rdStat, 0x30000000#32, 0xFFFFFFFE#32⟩ ]

/-- "A word `w` is the command of a row exactly when `(w AND mask) = match`" (R49). -/
def OpcodeRow.holds (r : OpcodeRow) (w : CommandWord) : Bool := w &&& r.mask == r.pattern

/-- A word that is the command of no row of the opcode map (R52). -/
def isIllegal (w : CommandWord) : Bool := opcodeMap.all fun r => !r.holds w

/-- The instruction read from a row's bits as spec/opcode_table.json numbers them: bit 0 is the least significant bit of the
one 32-bit word; bits above `nbits` are 0; `none` where the decoder rejects the word or the number is wider than a word. -/
def decodeTableWord (nbits w : Nat) : Option Instr :=
  if w % 2 ^ nbits < 2 ^ 32 then
    match decode (BitVec.ofNat 32 (w % 2 ^ nbits)) with
    | .ok i => some i
    | .error _ => none
  else none

end Sys2Proof
end

