-- ==== Sys2Proof/Config.lean ====
section
/-! DEFINITION. The parameters of the block (00_scope.md R6), all fixed: "There is no configuration surface". The spec
leaves no result of a command undefined, so there is no free value and no opaque constant here. The widths SYM_BITS 8,
CODE_BITS 16, UNIT_BITS 16 and CMD_BITS 32 are the types of Word.lean; N_TABLES 2 is the two channels of State. -/

namespace Sys2Proof.Config

/-- `N_LITERAL`: the number of seed entries, codes 0 to 255 (R6). -/
def nLiteral : Nat := 256

/-- `FIRST_CODE`: the first assignable code (R6). -/
def firstCode : Nat := 256

/-- `MAX_CODE`: the largest code (R6). -/
def maxCode : Nat := 65535

/-- `CAPACITY`: the number of codes, and the value of `next` that means "full" (R6). -/
def capacity : Nat := 65536

/-- The codes that can be assigned in one epoch, 256 to 65535 (R65): the bound inside `CodeTable`. -/
def maxAssigned : Nat := capacity - firstCode

@[simp] theorem nLiteral_eq : nLiteral = 256 := rfl
@[simp] theorem firstCode_eq : firstCode = 256 := rfl
@[simp] theorem maxCode_eq : maxCode = 65535 := rfl
@[simp] theorem capacity_eq : capacity = 65536 := rfl
@[simp] theorem maxAssigned_eq : maxAssigned = 65280 := rfl

end Sys2Proof.Config
end

