-- ==== Sys2Proof/Machine/State.lean ====
section
/-! DEFINITION. The state of the block (10_state.md R10 to R19, "there is nothing else that holds a value between commands")
and, kept apart from it, the host's side of the two ports: the events it will still present and the responses it has
collected. The fixed interface `step : State → Outcome` has no place for the command word of `step : State x CommandWord ->
State x Response` (30_encoding.md R45) but State, so the command stream, "a parameter of the run, not state of the block"
(R11, R25), is the field `host` (log entries 1 and 2). -/

namespace Sys2Proof.Machine

/-- `E.st`, the encoder's control state (R12): values 2 and 3 of the field are never produced (U8). -/
inductive EncSt where
  /-- no Compress call is in progress -/
  | idle
  /-- a call is in progress -/
  | run
  deriving DecidableEq, Repr

/-- `D.st`, the decoder's control state (R15): value 3 of the field is never produced (U8). -/
inductive DecSt where
  /-- no Decompress call is in progress -/
  | idle
  /-- a call is in progress -/
  | run
  /-- a DecodeError occurred and no DEC.START or RESET has happened since -/
  | err
  deriving DecidableEq, Repr

/-- A Code Table `T` (R18): the sequences at codes 256, 257, … in code order. `T.next` is 256 plus their number and the 256
seeds are constant, as R18 allows a model to hold it. The bound keeps `next` at most 65536 (R19 (a), U8). -/
structure CodeTable where
  assigned : List SymSeq
  bound    : assigned.length ≤ 65280 := by decide
  deriving DecidableEq, Repr

/-- The initial 256-entry table: nothing assigned, `next` 256 (R26, R60). -/
def CodeTable.initial : CodeTable := { assigned := [] }

/-- The encoder channel: `E.st`, `E.p`, `E.ct` (R12, R13, R14). -/
structure EncChannel where
  st : EncSt
  p  : SymSeq
  ct : CodeTable
  deriving DecidableEq, Repr

/-- The decoder channel: `D.st`, `D.pv`, `D.prev`, `D.ct` (R15, R16, R17). -/
structure DecChannel where
  st   : DecSt
  pv   : Bool
  prev : SymSeq
  ct   : CodeTable
  deriving DecidableEq, Repr

/-- The block: its complete register inventory (R10). STC has no state (R92); ESTAT and DSTAT are views (R21). -/
structure Block where
  enc : EncChannel
  dec : DecChannel
  deriving DecidableEq, Repr

/-- The `status` of a response (R50); values 4 to 15 are never produced (U8). -/
inductive Status where
  /-- 0, the command was executed -/
  | ok
  /-- 1, the word is no legal encoding; nothing was done (R123) -/
  | errIllegal
  /-- 2, the command is not allowed in the control state; nothing was done (R122) -/
  | errSeq
  /-- 3, DecodeError, or its echo in the ERR state (R121, R127) -/
  | errDecode
  deriving DecidableEq, Repr

/-- One output item (R50); a code and a text unit of the same value are different kinds of item (R92). -/
inductive Item where
  | code (k : Code)
  | symbol (c : Symbol)
  | unit (u : TextUnit)
  | word (v : StatusWord)
  deriving DecidableEq, Repr

/-- A response: the pair `(status, out)` (R50). -/
structure Response where
  status : Status
  out    : List Item
  deriving DecidableEq, Repr

/-- What the host presents: one command word on the command port (R45), or the RESET event (R140). -/
inductive HostEvent where
  | reset
  | command (w : CommandWord)
  deriving DecidableEq, Repr

/-- The host's side of the ports, not state of the block (R11, R25): the events it will still present, next one first, and
the responses it has collected, oldest first. -/
structure HostSide where
  inputs    : List HostEvent
  responses : List Response
  deriving DecidableEq, Repr

/-- The machine: the block and the host's side of its ports. -/
structure State where
  block : Block
  host  : HostSide
  deriving DecidableEq, Repr

/-- Why the machine stops. Neither reason is met from a state with the invariants of Safety.lean, so from reset neither
occurs; the three faults the spec names (R120) are answers in a response, after which the block goes on. -/
inductive Fault where
  /-- ENC.SYM on a miss, or ENC.END: the prefix `E.p` is not in the table, which R73 says never happens ("never absent").
  Safe: the model stops where the spec gives no effect. -/
  | prefixNotInTable
  /-- DEC.CODE takes symbol 0 of an empty sequence, which R8 leaves undefined and R16 and R19 (c) exclude.
  Safe: the model stops where the spec gives no effect. -/
  | indexOfEmptySequence
  deriving DecidableEq, Repr

/-- Why the model declines an instruction. -/
inductive Refusal where
  /-- Raised by an arm of exec whose instruction has no meaning in the model; no arm raises it. Safe: nothing is claimed. -/
  | notModelled (mnemonic : String)
  deriving DecidableEq, Repr

/-- The encoder channel's one reset state (R26, R27, R141). -/
def EncChannel.init : EncChannel := { st := .idle, p := [], ct := CodeTable.initial }

/-- The decoder channel's one reset state (R26, R27, R141). -/
def DecChannel.init : DecChannel := { st := .idle, pv := false, prev := [], ct := CodeTable.initial }

/-- The block after RESET: both channels in their reset state (R26, R140, R141). -/
def Block.init : Block := { enc := EncChannel.init, dec := DecChannel.init }

/-- The machine right after reset (R26), with a host that presents nothing and has collected nothing (log entries 1, 2). -/
def State.reset : State := { block := Block.init, host := { inputs := [], responses := [] } }

end Sys2Proof.Machine
end

