-- ==== Sys2Proof/Machine/Ops.lean ====
section
/-! DEFINITION. The named operations: the four Code Table primitives (41_code_table.md R60 to R63), responses and rejections
(00_scope.md R8, 30_encoding.md R50), taking a DecodeError (60_exceptions.md R126), RESET (70_reset_and_hazards.md R140), and
what one step takes from the host. -/

namespace Sys2Proof.Machine

/-! ## The Code Table (R18, R60 to R63) -/

/-- `T.next`, the next assignable code (R18): 256 plus the number of assigned entries; 65536 means full. -/
def CodeTable.next (T : CodeTable) : Nat := Config.firstCode + T.assigned.length

/-- `CT.INIT(T)`: every entry of index 256 and up is discarded, `T.next <- 256` (R60). -/
def ctInit (_T : CodeTable) : CodeTable := CodeTable.initial

/-- `CT.GET(T, k)`: `[k]` for a seed, the assigned entry below `T.next`, `absent` (`none`) from there on (R18, R61). -/
def ctGet (T : CodeTable) (k : Nat) : Option SymSeq :=
  if k < Config.nLiteral then some [BitVec.ofNat 8 k] else T.assigned[k - Config.nLiteral]?

/-- `CT.FIND(T, q)`: the least `k < T.next` with `T.ent[k] = q`, else `absent` (R62, D17). -/
def ctFind (T : CodeTable) (q : SymSeq) : Option Nat :=
  (List.range T.next).find? fun k => decide (ctGet T k = some q)

/-- The table reset inside `CT.INSERT`: `if T.next = 65536 then CT.INIT(T)` (R63). -/
def ctMakeRoom (T : CodeTable) : CodeTable := if T.next = Config.capacity then ctInit T else T

/-- After the table reset a location is free, so the append of R63 cannot pass the ceiling. -/
theorem ctMakeRoom_has_room (T : CodeTable) : (ctMakeRoom T).assigned.length < 65280 := by
  have hb := T.bound
  unfold ctMakeRoom
  split
  · simp [ctInit, CodeTable.initial]
  · rename_i h
    simp only [CodeTable.next, Config.firstCode_eq, Config.capacity_eq] at h
    omega

/-- `CT.INSERT(T, q)`: the table reset if it is due, then `q` under the next unused code; the code assigned and the table
(R63). It does not look whether `q` is present (R66). -/
def ctInsert (T : CodeTable) (q : SymSeq) : Nat × CodeTable :=
  ((ctMakeRoom T).next,
   { assigned := (ctMakeRoom T).assigned ++ [q]
     bound := by
       have := ctMakeRoom_has_room T
       simp only [List.length_append, List.length_singleton]
       omega })

/-- R19 (c): every assigned entry has length 2 or more. -/
def CodeTable.wf (T : CodeTable) : Bool := T.assigned.all fun q => decide (2 ≤ q.length)

/-- The memory of the block is its Code Tables (R29); the canonical form of one is `CodeTable.wf`. A location that is not
populated is not listed, and reads as `absent`, so equal memories are equal lists by construction. -/
abbrev Memory.wf (T : CodeTable) : Bool := T.wf

/-! ## Responses (R8, R50) -/

/-- What a command does to its channel: the channel's next state and the response, or a stop. -/
abbrev Answer (σ : Type) := Except Fault (σ × Response)

/-- `status <- OK; out <- items` (R8, R50). -/
def accept (items : List Item) : Response := { status := .ok, out := items }

/-- `reject st`: that status, `out = []` (R8); no state changes, which is the caller's part. -/
def reject (st : Status) : Response := { status := st, out := [] }

/-- Deliver a response to the host: it is appended to those collected, in command order (R39, R45). -/
def State.respond (s : State) (r : Response) : State :=
  { s with host := { s.host with responses := s.host.responses ++ [r] } }

/-- Write the encoder channel. -/
def State.setEnc (s : State) (e : EncChannel) : State := { s with block := { s.block with enc := e } }

/-- Write the decoder channel. -/
def State.setDec (s : State) (d : DecChannel) : State := { s with block := { s.block with dec := d } }

/-- Run an encoder command: it sees and writes the encoder channel alone (R31, R40). -/
def onEnc (f : EncChannel → Answer EncChannel) (s : State) : Host.Outcome State Fault Refusal :=
  match f s.block.enc with
  | .ok (e, r) => .next ((s.setEnc e).respond r)
  | .error x => .fault x

/-- Run a decoder command: it sees and writes the decoder channel alone (R31, R40). -/
def onDec (f : DecChannel → Answer DecChannel) (s : State) : Host.Outcome State Fault Refusal :=
  match f s.block.dec with
  | .ok (d, r) => .next ((s.setDec d).respond r)
  | .error x => .fault x

/-- Answer a command that writes no state of the block (STC.PACK, STC.UNPACK, RD.STAT). -/
def answerOnly (s : State) (r : Response) : Host.Outcome State Fault Refusal := .next (s.respond r)

/-! ## Taking a DecodeError, and leaving the ERR state -/

/-- `raise DecodeError` (R126): `D.st <- ERR`, `previous` and the table re-initialised, no output, status ERR_DECODE;
nothing is saved and nothing else changes. -/
def raiseDecodeError (d : DecChannel) : Answer DecChannel :=
  .ok ({ st := .err, pv := false, prev := [], ct := ctInit d.ct }, reject .errDecode)

/-- The return from ERR by a new call (R127): what DEC.START leaves in the channel, from any control state (R80). -/
def beginDecode (d : DecChannel) : DecChannel := { st := .run, pv := false, prev := [], ct := ctInit d.ct }

/-! ## RESET, illegal words, and what a step takes from the host -/

/-- The RESET event (R140): both channels to their reset state; no response. -/
def takeReset (s : State) : Host.Outcome State Fault Refusal := .next { s with block := Block.init }

/-- An illegal word (R52, R123): ERR_ILLEGAL, no output, no state change. -/
def rejectIllegal (s : State) : Host.Outcome State Fault Refusal := .next (s.respond (reject .errIllegal))

/-- No event is presented: the block holds its state and waits, "nothing wakes it but a command" (R134; log entry 3). -/
def waitForHost (s : State) : Host.Outcome State Fault Refusal := .next s

/-- The next event the host presents, and the machine with that event taken (R39, R45). -/
def takeEvent (s : State) : Option (HostEvent × State) :=
  match s.host.inputs with
  | [] => none
  | e :: rest => some (e, { s with host := { s.host with inputs := rest } })

/-- Put a command word ahead of everything the host was going to present. -/
def State.presentNext (s : State) (w : CommandWord) : State :=
  { s with host := { s.host with inputs := .command w :: s.host.inputs } }

end Sys2Proof.Machine
end

