-- ==== Sys2Proof/Machine/Operands.lean ====
section
/-! DEFINITION. Operands and output items: the numeric maps between symbols, codes and text units (30_encoding.md R58,
44_string_transport.md R90 to R95), symbol 0 of a sequence (00_scope.md R8), and the reading of output items by kind. The
operand fields of the four formats themselves (R47, R48) are in Decode.lean. -/

namespace Sys2Proof.Machine

/-- `zext_16(c)`: the code that stands for a symbol has the symbol's value (R58). -/
def codeOfSymbol (c : Symbol) : Code := c.setWidth 16

/-- A table index as the 16-bit code it is (R30: `0 <= k <= 65535`). -/
def codeOfIndex (k : Nat) : Code := BitVec.ofNat 16 k

/-- `PACK(k)`: the text unit with the code's value (R58, R90, R92). -/
def pack (k : Code) : TextUnit := k

/-- `UNPACK(u)`: the code with the text unit's value (R58, R91, R92). -/
def unpack (u : TextUnit) : Code := u

/-- An output symbol of a string is the character `zext_16(c)` (R94, R108). -/
def charOfSymbol (c : Symbol) : TextUnit := c.setWidth 16

/-- `q[0]`, "defined only for `i < |q|`" (R8): a named stop on the empty sequence (log entry 6). -/
def firstSymbol : SymSeq → Except Fault Symbol
  | [] => .error .indexOfEmptySequence
  | c :: _ => .ok c

/-- The code an output item carries, if it is one. -/
def Item.code? : Item → Option Code
  | .code k => some k
  | .symbol _ => none
  | .unit _ => none
  | .word _ => none

/-- The symbol an output item carries, if it is one. -/
def Item.symbol? : Item → Option Symbol
  | .code _ => none
  | .symbol c => some c
  | .unit _ => none
  | .word _ => none

/-- The text unit an output item carries, if it is one. -/
def Item.unit? : Item → Option TextUnit
  | .code _ => none
  | .symbol _ => none
  | .unit u => some u
  | .word _ => none

/-- The status word an output item carries, if it is one. -/
def Item.word? : Item → Option StatusWord
  | .code _ => none
  | .symbol _ => none
  | .unit _ => none
  | .word v => some v

end Sys2Proof.Machine
end

