-- ==== Sys2Proof/Machine/Flags.lean ====
section
/-! DEFINITION. The conditions derived from the state (10_state.md R20), the encodings of the control states and of the
response status (R12, R15, 30_encoding.md R50), and the two read-only status registers (45_status.md R101, R102). -/

namespace Sys2Proof.Machine

/-- The 2-bit encoding of `E.st` (R12). -/
def EncSt.bits : EncSt → BitVec 2
  | .idle => 0#2
  | .run => 1#2

/-- The 2-bit encoding of `D.st` (R15). -/
def DecSt.bits : DecSt → BitVec 2
  | .idle => 0#2
  | .run => 1#2
  | .err => 2#2

/-- The 4-bit encoding of a response's status (R50). -/
def Status.bits : Status → BitVec 4
  | .ok => 0#4
  | .errIllegal => 1#4
  | .errSeq => 2#4
  | .errDecode => 3#4

/-- The condition `FULL`: `T.next = 65536`, which is bit 16 of the NEXT field (R20). -/
def CodeTable.full (T : CodeTable) : Bool := decide (T.next = Config.capacity)

/-- The condition `PV` of the encoder: `E.p != ε` (R20, R101). -/
def EncChannel.hasPrefix (e : EncChannel) : Bool := decide (e.p ≠ [])

/-- The layout common to both status registers (R101, R102): NEXT 16:0, zeros 23:17, ST 25:24, PV 26, zeros 31:27. -/
def statusWord (pv : Bool) (st : BitVec 2) (next : Nat) : StatusWord :=
  0#5 ++ BitVec.ofBool pv ++ st ++ 0#7 ++ BitVec.ofNat 17 next

/-- ESTAT (R101). -/
def estat (b : Block) : StatusWord := statusWord b.enc.hasPrefix b.enc.st.bits b.enc.ct.next

/-- DSTAT (R102). -/
def dstat (b : Block) : StatusWord := statusWord b.dec.pv b.dec.st.bits b.dec.ct.next

/-- The status register a selector names (R100). -/
def readStatus (b : Block) : StatusReg → StatusWord
  | .estat => estat b
  | .dstat => dstat b

end Sys2Proof.Machine
end

