-- ==== Sys2Proof/Machine/Decoder.lean ====
section
/-! DEFINITION. The decoder commands DEC.START, DEC.CODE, DEC.END (43_decoder.md R80 to R83; control states 10_state.md R23).
The order inside DEC.CODE is that of R81: table reset, resolve, insert, output (conflicts C3 and C6). -/

namespace Sys2Proof.Machine

/-- DEC.START (R80): legal in every control state, ERR included, which it ends (R127). -/
def decStart (d : DecChannel) : Answer DecChannel := .ok (beginDecode d, accept [])

/-- DEC.CODE step (a): the table reset, when an insertion is due and the table is full, before the code is resolved. -/
def decMakeRoom (d : DecChannel) : CodeTable :=
  if d.pv = true ∧ d.ct.next = Config.capacity then ctInit d.ct else d.ct

/-- DEC.CODE step (b): the entry of `k` in the table as it stands after step (a), the self-referential
`D.prev ++ [D.prev[0]]`, or `none` for a DecodeError (R81, R83). -/
def decResolve (T : CodeTable) (pv : Bool) (prev : SymSeq) (k : Code) : Except Fault (Option SymSeq) :=
  if k.toNat < T.next then .ok (ctGet T k.toNat)
  else if k.toNat = T.next ∧ pv = true then
    match firstSymbol prev with
    | .error x => .error x
    | .ok c => .ok (some (prev ++ [c]))
  else .ok none

/-- DEC.CODE step (c): with a `previous`, the insertion of `D.prev ++ [entry[0]]` (R81). -/
def decGrow (T : CodeTable) (pv : Bool) (prev entry : SymSeq) : Except Fault CodeTable :=
  if pv = true then
    match firstSymbol entry with
    | .error x => .error x
    | .ok c => .ok (ctInsert T (prev ++ [c])).2
  else .ok T

/-- DEC.CODE step (d): the symbols of the entry go out in order and the entry becomes `previous` (R81). -/
def decOutput (d : DecChannel) (T : CodeTable) (entry : SymSeq) : Answer DecChannel :=
  .ok ({ d with pv := true, prev := entry, ct := T }, accept (entry.map .symbol))

/-- DEC.CODE `k` in RUN: steps (a) to (d) of R81. -/
def decCodeRun (k : Code) (d : DecChannel) : Answer DecChannel :=
  match decResolve (decMakeRoom d) d.pv d.prev k with
  | .error x => .error x
  | .ok none => raiseDecodeError d
  | .ok (some entry) =>
    match decGrow (decMakeRoom d) d.pv d.prev entry with
    | .error x => .error x
    | .ok T => decOutput d T entry

/-- DEC.CODE `k` (R81): ERR_SEQ in IDLE, the echo ERR_DECODE in ERR (R127), steps (a) to (d) in RUN. -/
def decCode (k : Code) (d : DecChannel) : Answer DecChannel :=
  match d.st with
  | .idle => .ok (d, reject .errSeq)
  | .err => .ok (d, reject .errDecode)
  | .run => decCodeRun k d

/-- DEC.END (R82): ERR_SEQ in IDLE, the echo ERR_DECODE in ERR (R127); in RUN the channel returns to its reset state. -/
def decEnd (d : DecChannel) : Answer DecChannel :=
  match d.st with
  | .idle => .ok (d, reject .errSeq)
  | .err => .ok (d, reject .errDecode)
  | .run => .ok ({ st := .idle, pv := false, prev := [], ct := ctInit d.ct }, accept [])

/-- The meaning of DEC.START. -/
def execDecStart (s : State) : Host.Outcome State Fault Refusal := onDec decStart s

/-- The meaning of DEC.CODE. -/
def execDecCode (k : Code) (s : State) : Host.Outcome State Fault Refusal := onDec (decCode k) s

/-- The meaning of DEC.END. -/
def execDecEnd (s : State) : Host.Outcome State Fault Refusal := onDec decEnd s

end Sys2Proof.Machine
end

