-- ==== Sys2Proof/Machine/Encoder.lean ====
section
/-! DEFINITION. The encoder commands ENC.START, ENC.SYM, ENC.END (42_encoder.md R70 to R72; control states 10_state.md R22). -/

namespace Sys2Proof.Machine

/-- ENC.START (R70): legal in every control state; a fresh call begins and one in progress is abandoned. -/
def encStart (e : EncChannel) : Answer EncChannel :=
  .ok ({ st := .run, p := [], ct := ctInit e.ct }, accept [])

/-- The hit branch of ENC.SYM: the prefix is extended, no output (R71). -/
def encHit (e : EncChannel) (q : SymSeq) : Answer EncChannel := .ok ({ e with p := q }, accept [])

/-- The miss branch of ENC.SYM: the code of the old prefix is read before the insertion, then `q` is inserted, and `c` alone
is the next prefix (R71). The code is "never absent (rule R73)"; where it were, the model stops (log entry 5). -/
def encMiss (e : EncChannel) (c : Symbol) (q : SymSeq) : Answer EncChannel :=
  match ctFind e.ct e.p with
  | none => .error .prefixNotInTable
  | some k => .ok ({ e with ct := (ctInsert e.ct q).2, p := [c] }, accept [.code (codeOfIndex k)])

/-- ENC.SYM `c` (R71): ERR_SEQ in IDLE; in RUN, hit or miss of `E.p ++ [c]`. -/
def encSym (c : Symbol) (e : EncChannel) : Answer EncChannel :=
  match e.st with
  | .idle => .ok (e, reject .errSeq)
  | .run =>
    match ctFind e.ct (e.p ++ [c]) with
    | some _ => encHit e (e.p ++ [c])
    | none => encMiss e c (e.p ++ [c])

/-- What ENC.END leaves: IDLE, empty prefix, the table discarded (R72). -/
def encFinish (e : EncChannel) (out : List Item) : Answer EncChannel :=
  .ok ({ st := .idle, p := [], ct := ctInit e.ct }, accept out)

/-- ENC.END (R72): ERR_SEQ in IDLE; in RUN the code of a non-empty prefix, none for an empty one. The code is "never absent
(rule R73)"; where it were, the model stops (log entry 5). -/
def encEnd (e : EncChannel) : Answer EncChannel :=
  match e.st with
  | .idle => .ok (e, reject .errSeq)
  | .run =>
    if e.p = [] then encFinish e []
    else
      match ctFind e.ct e.p with
      | none => .error .prefixNotInTable
      | some k => encFinish e [.code (codeOfIndex k)]

/-- The meaning of ENC.START. -/
def execEncStart (s : State) : Host.Outcome State Fault Refusal := onEnc encStart s

/-- The meaning of ENC.SYM. -/
def execEncSym (c : Symbol) (s : State) : Host.Outcome State Fault Refusal := onEnc (encSym c) s

/-- The meaning of ENC.END. -/
def execEncEnd (s : State) : Host.Outcome State Fault Refusal := onEnc encEnd s

end Sys2Proof.Machine
end

