-- ==== Sys2Proof/Machine/StatusRead.lean ====
section
/-! DEFINITION. The status read RD.STAT (45_status.md R100): legal in every state, without side effect. -/

namespace Sys2Proof.Machine

/-- The meaning of RD.STAT: one 32-bit word, composed from the state at the time of the command (R100 to R102). -/
def execRdStat (sel : StatusReg) (s : State) : Host.Outcome State Fault Refusal :=
  answerOnly s (accept [.word (readStatus s.block sel)])

end Sys2Proof.Machine
end

