-- ==== Sys2Proof/Machine/Transport.lean ====
section
/-! DEFINITION. The String Transport Codec commands STC.PACK and STC.UNPACK (44_string_transport.md R90, R91): legal in every
state of both channels, reading and writing none (R92). -/

namespace Sys2Proof.Machine

/-- The meaning of STC.PACK: exactly one text unit, of the code's value (R90). -/
def execStcPack (k : Code) (s : State) : Host.Outcome State Fault Refusal := answerOnly s (accept [.unit (pack k)])

/-- The meaning of STC.UNPACK: exactly one code, of the text unit's value; it is checked against no table (R91). -/
def execStcUnpack (u : TextUnit) (s : State) : Host.Outcome State Fault Refusal := answerOnly s (accept [.code (unpack u)])

end Sys2Proof.Machine
end

