-- ==== Sys2Proof/Machine/Dispatch.lean ====
section
/-! DEFINITION. One arm per command of spec/opcode_table.json. -/

namespace Sys2Proof.Machine

def exec (i : Instr) (s : State) : Host.Outcome State Fault Refusal :=
  match i with
  | .encStart => Sys2Proof.Machine.execEncStart s
  | .encSym c => Sys2Proof.Machine.execEncSym c s
  | .encEnd => Sys2Proof.Machine.execEncEnd s
  | .decStart => Sys2Proof.Machine.execDecStart s
  | .decCode k => Sys2Proof.Machine.execDecCode k s
  | .decEnd => Sys2Proof.Machine.execDecEnd s
  | .stcPack k => Sys2Proof.Machine.execStcPack k s
  | .stcUnpack u => Sys2Proof.Machine.execStcUnpack u s
  | .rdStat sel => Sys2Proof.Machine.execRdStat sel s

end Sys2Proof.Machine
end

