-- ==== Sys2Proof/Machine/Step.lean ====
section
/-! DEFINITION. One step: the next event of the host is taken and executed to completion, its response included (20_memory.md
R38, R39; 30_encoding.md R45). The block has no program counter and fetches nothing from a memory (10_state.md R11): the
command word comes from the command port. -/

namespace Sys2Proof.Machine

/-- The step: no event, the block waits; RESET (R140); a word is decoded first, without reading the state (R125), then
executed or answered ERR_ILLEGAL (R52). -/
def step (s : State) : Host.Outcome State Fault Refusal :=
  match takeEvent s with
  | none => waitForHost s
  | some (.reset, s') => takeReset s'
  | some (.command w, s') =>
    match decode w with
    | .ok i => exec i s'
    | .error _ => rejectIllegal s'

/-- The machine about to be given the command word `w` (its `nbits` bits, the rest 0): the host presents it next, ahead of
what it was going to present. Nothing else changes (log entry 4). -/
def State.withFetchWord (s : State) (nbits w : Nat) : State := s.presentNext (BitVec.ofNat 32 (w % 2 ^ nbits))

end Sys2Proof.Machine
end

