-- ==== Sys2Proof/Machine/Calls.lean ====
section
/-! DEFINITION. The four call-level functions as what the host's programs over the nine commands compute (46_calls.md R105 to
R108), with the expansions of the pseudo-instructions (30_encoding.md R56). A call's result is read off the responses. -/

namespace Sys2Proof.Machine

/-- The host presents exactly these events and begins to collect responses afresh. -/
def State.present (s : State) (events : List HostEvent) : State :=
  { s with host := { inputs := events, responses := [] } }

/-- The command events of a program. -/
def commandEvents (program : List Instr) : List HostEvent := program.map fun i => .command (encode i)

/-- `n` steps, stopping where the machine stops. -/
def run : Nat → State → Host.Outcome State Fault Refusal
  | 0, s => .next s
  | n + 1, s =>
    match step s with
    | .next t => run n t
    | .fault x => .fault x
    | .refused x => .refused x

/-- Issue events in order from a state, and let the machine take them all (`run(cmds)` of 46_calls.md). -/
def issue (s : State) (events : List HostEvent) : Host.Outcome State Fault Refusal := run events.length (s.present events)

/-- What a call-level function returns. -/
inductive CallResult (α : Type) where
  /-- every response has status OK: the items of the `out` lists, concatenated in order -/
  | value (items : List α)
  /-- a response has another status, the first such one; ERR_DECODE is the DecodeError of R106 -/
  | failed (st : Status)
  /-- the machine stopped; never from reset (Safety.lean) -/
  | stopped
  deriving DecidableEq, Repr

/-- DecodeError as a call's result (R106). -/
def CallResult.decodeError {α : Type} : CallResult α := .failed .errDecode

/-- Go on with the items of a call that returned some. -/
def CallResult.andThen {α β : Type} (r : CallResult α) (f : List α → CallResult β) : CallResult β :=
  match r with
  | .value items => f items
  | .failed st => .failed st
  | .stopped => .stopped

/-- Read a call's result off its responses (R105, R106): the `out` lists concatenated if every status is OK. -/
def resultOf {α : Type} (item? : Item → Option α) (responses : List Response) : CallResult α :=
  match responses.find? fun r => decide (r.status ≠ .ok) with
  | some r => .failed r.status
  | none => .value ((responses.flatMap fun r => r.out).filterMap item?)

/-- Run a program of commands from a state and read its result (R105, R106). -/
def call {α : Type} (item? : Item → Option α) (program : List Instr) (s : State) : CallResult α :=
  match issue s (commandEvents program) with
  | .next t => resultOf item? t.host.responses
  | .fault _ => .stopped
  | .refused _ => .stopped

/-- `COMPRESS s` up to, and without, its ENC.END (R56). -/
def feedEncoder (s : SymSeq) : List Instr := .encStart :: s.map .encSym

/-- The expansion of `COMPRESS s` (R56, R105). -/
def compressProgram (s : SymSeq) : List Instr := feedEncoder s ++ [.encEnd]

/-- `DECOMPRESS ks` up to, and without, its DEC.END (R56). -/
def feedDecoder (ks : List Code) : List Instr := .decStart :: ks.map .decCode

/-- The expansion of `DECOMPRESS ks` (R56, R106). -/
def decompressProgram (ks : List Code) : List Instr := feedDecoder ks ++ [.decEnd]

/-- The STC.PACK commands of `COMPRESS_TO_STRING` (R56, R107). -/
def packProgram (ks : List Code) : List Instr := ks.map .stcPack

/-- The STC.UNPACK commands of `DECOMPRESS_STRING` (R56, R108). -/
def unpackProgram (us : List TextUnit) : List Instr := us.map .stcUnpack

/-- `Compress(s)` run from a given state (R105). -/
def compressFrom (m : State) (s : SymSeq) : CallResult Code := call Item.code? (compressProgram s) m

/-- `Decompress(ks)` run from a given state (R106). -/
def decompressFrom (m : State) (ks : List Code) : CallResult Symbol := call Item.symbol? (decompressProgram ks) m

/-- `CompressToString(t)` (R107): a character of code point 0 to 255 is the symbol of that value (R94); a wider character
has no symbol and the function is not defined on it (U1), so it cannot be given. -/
def compressToStringFrom (m : State) (t : SymSeq) : CallResult TextUnit :=
  (compressFrom m t).andThen fun ks => call Item.unit? (packProgram ks) m

/-- `DecompressString(us)` (R108): each output symbol `c` is the character `zext_16(c)`. -/
def decompressStringFrom (m : State) (us : List TextUnit) : CallResult TextUnit :=
  (call Item.code? (unpackProgram us) m).andThen fun ks =>
    (decompressFrom m ks).andThen fun cs => .value (cs.map charOfSymbol)

/-- `Compress(s)` on a block after RESET. -/
def compress (s : SymSeq) : CallResult Code := compressFrom State.reset s

/-- `Decompress(ks)` on a block after RESET. -/
def decompress (ks : List Code) : CallResult Symbol := decompressFrom State.reset ks

/-- `CompressToString(t)` on a block after RESET. -/
def compressToString (t : SymSeq) : CallResult TextUnit := compressToStringFrom State.reset t

/-- `DecompressString(us)` on a block after RESET. -/
def decompressString (us : List TextUnit) : CallResult TextUnit := decompressStringFrom State.reset us

end Sys2Proof.Machine
end

