-- ==== Sys2Proof/Safety.lean ====
section
/-! DEFINITION. What counts as a safe state and a safe run: the invariants the spec gives the two channels (10_state.md R16,
R19, R27; 41_code_table.md R66; 42_encoder.md R73; 00_scope.md R7), in the terms the statements use. -/

namespace Sys2Proof.Machine

/-- The encoder channel's invariants. -/
structure EncInv (e : EncChannel) : Prop where
  /-- every assigned entry has length 2 or more (R19 (c)) -/
  entries : e.ct.wf = true
  /-- no entry the encoder inserts exceeds 65282 symbols (R7) -/
  entryBound : ∀ q ∈ e.ct.assigned, q.length ≤ 65282
  /-- in E.ct every sequence is stored at most once (R66) -/
  distinct : e.ct.assigned.Nodup
  /-- whenever `E.st = IDLE` the channel is exactly in its reset state (R27) -/
  idle : e.st = .idle → e = EncChannel.init
  /-- the prefix, grown a symbol at a time, is found in the table at every non-zero length (R73, R74) -/
  prefixes : ∀ n, 0 < n → n ≤ e.p.length → (ctFind e.ct (e.p.take n)).isSome = true

/-- The decoder channel's invariants. -/
structure DecInv (d : DecChannel) : Prop where
  /-- every assigned entry has length 2 or more (R19 (c)) -/
  entries : d.ct.wf = true
  /-- outside RUN there is no `previous` (R27) -/
  resting : d.st ≠ .run → d.pv = false
  /-- without a `previous` the register is empty and the table initialised (R16, R27, R102) -/
  absent : d.pv = false → d.prev = [] ∧ d.ct = CodeTable.initial
  /-- `D.pv = 1` means `D.prev` holds a sequence of length 1 or more (R16) -/
  present : d.pv = true → d.prev ≠ []

/-- The invariants of the machine; the host may present and have collected anything. -/
structure State.Inv (s : State) : Prop where
  enc : EncInv s.block.enc
  dec : DecInv s.block.dec

/-- The machine after a command that left these channels and gave this response: the host's remaining events are as they
were and the response is collected after the earlier ones. Every field of State is named here. -/
def State.answered (s : State) (e : EncChannel) (d : DecChannel) (r : Response) : State :=
  { block := { enc := e, dec := d }, host := { inputs := s.host.inputs, responses := s.host.responses ++ [r] } }

/-- A run of insertions, counting the table resets it makes (R65): the insertions that find `next = 65536` (R63). -/
def insertAll : List SymSeq → Nat → CodeTable → Nat × CodeTable
  | [], resets, T => (resets, T)
  | q :: qs, resets, T => insertAll qs (if T.next = 65536 then resets + 1 else resets) (ctInsert T q).2

/-- An event that concerns a piece of the block: RESET, or a legal command addressed to that piece (R40). -/
def concerns (p : Piece) : HostEvent → Bool
  | .reset => true
  | .command w =>
    match decode w with
    | .ok i => decide (i.piece = p)
    | .error _ => false

/-- Is an event a command word, and so answered by a response (R45, R140)? -/
def isCommand : HostEvent → Bool
  | .reset => false
  | .command _ => true

/-- The responses to the commands of a stream that concern a piece, in order. -/
def responsesTo (p : Piece) (events : List HostEvent) (responses : List Response) : List Response :=
  (((events.filter isCommand).zip responses).filter fun x => concerns p x.1).map Prod.snd

/-- The `out` items of a response are all of one kind (R50). -/
def oneKind (out : List Item) : Prop :=
  (∀ x ∈ out, (Item.code? x).isSome = true) ∨ (∀ x ∈ out, (Item.symbol? x).isSome = true) ∨
  (∀ x ∈ out, (Item.unit? x).isSome = true) ∨ (∀ x ∈ out, (Item.word? x).isSome = true)

/-- The adjacent pairs of a sequence, in order (R76). -/
def adjacentPairs (s : SymSeq) : List (Symbol × Symbol) := s.zip s.tail

end Sys2Proof.Machine
end

