-- ==== Sys2Proof/Certificates/Slice0/Obligations.lean ====
section
/-! DEFINITION. The statements for the provers. Rules R<n> are those of spec/; a next state written `s.answered e d r` names
every field of State, so each such statement is also the frame of its command. -/

open Sys2Proof Sys2Proof.Machine

/-! ## Encoding -/

/-- Decoding an encoded command gives it back, with every operand at every value (R46 to R49). -/
def Obligations.DecodeOfEncodeIsTheCommand : Prop := ∀ i : Instr, decode (encode i) = .ok i

/-- A legal word has one meaning: encoding the command it decodes to gives the word (R49, R52, R53). -/
def Obligations.EncodeOfDecodeIsTheWord : Prop := ∀ (w : CommandWord) (i : Instr), decode w = .ok i → encode i = w

/-- R49: a word is the command of a row exactly when `(w AND mask) = match`; the rows are disjoint. -/
def Obligations.DecoderFollowsTheOpcodeMap : Prop :=
  (∀ (w : CommandWord) (m : Mnemonic),
    (∃ i, decode w = .ok i ∧ i.mnemonic = m) ↔ ∃ r ∈ opcodeMap, r.mnemonic = m ∧ w &&& r.mask = r.pattern) ∧
  (∀ r ∈ opcodeMap, ∀ r' ∈ opcodeMap, ∀ w : CommandWord,
    w &&& r.mask = r.pattern → w &&& r'.mask = r'.pattern → r = r')

/-- R48: the operand is the word's low bits as an unsigned number, and one that does not fit cannot be encoded. -/
def Obligations.OperandIsTheWordsLowBits : Prop :=
  (∀ (w : CommandWord) (c : Symbol), decode w = .ok (.encSym c) → c.toNat = w.toNat % 256) ∧
  (∀ (w : CommandWord) (k : Code), decode w = .ok (.decCode k) → k.toNat = w.toNat % 65536) ∧
  (∀ (w : CommandWord) (k : Code), decode w = .ok (.stcPack k) → k.toNat = w.toNat % 65536) ∧
  (∀ (w : CommandWord) (u : TextUnit), decode w = .ok (.stcUnpack u) → u.toNat = w.toNat % 65536) ∧
  (∀ (w : CommandWord) (sel : StatusReg), decode w = .ok (.rdStat sel) → (sel = .dstat ↔ w.toNat % 2 = 1)) ∧
  (∀ n : Nat, 255 < n → SourceCommand.toInstr ⟨.encSym, some n⟩ = none) ∧
  (∀ n : Nat, 65535 < n → SourceCommand.toInstr ⟨.decCode, some n⟩ = none ∧
    SourceCommand.toInstr ⟨.stcPack, some n⟩ = none ∧ SourceCommand.toInstr ⟨.stcUnpack, some n⟩ = none)

/-- R52, R53: the illegal words, case by case as R52 lists them; every word is a command or illegal, never both. -/
def Obligations.IllegalWordsAreTheListedOnes : Prop :=
  ∀ w : CommandWord,
    ((∃ reason, decode w = .error reason) ↔
      (w.toNat / 2 ^ 24 ∉ [0x01, 0x02, 0x03, 0x11, 0x12, 0x13, 0x21, 0x22, 0x30] ∨
        w.toNat / 2 ^ 16 % 256 ≠ 0 ∨
        (w.toNat / 2 ^ 24 ∈ [0x01, 0x03, 0x11, 0x13] ∧ w.toNat % 65536 ≠ 0) ∨
        (w.toNat / 2 ^ 24 = 0x02 ∧ w.toNat % 65536 / 256 ≠ 0) ∨
        (w.toNat / 2 ^ 24 = 0x30 ∧ w.toNat % 65536 / 2 ≠ 0))) ∧
    ((∃ reason, decode w = .error reason) ↔ isIllegal w = true)

/-- R123, R125: an illegal word, told by the opcode map alone and in every state, answers ERR_ILLEGAL and changes nothing
of the block. -/
def Obligations.IllegalWordChangesNothing : Prop :=
  ∀ (s : State) (w : CommandWord) (rest : List HostEvent),
    s.host.inputs = .command w :: rest → (∀ r ∈ opcodeMap, w &&& r.mask ≠ r.pattern) →
    step s = .next { block := s.block
                     host := { inputs := rest, responses := s.host.responses ++ [{ status := .errIllegal, out := [] }] } }

/-- Words written out from the encodings of R46, R47 and R49 decode to the commands they stand for. -/
def Obligations.WrittenOutWordsDecode : Prop :=
  decode 0b00000001000000000000000000000000#32 = .ok .encStart ∧
  decode 0b00000010000000000000000001110100#32 = .ok (.encSym 116#8) ∧
  decode 0b00010010000000000000000100000000#32 = .ok (.decCode 256#16) ∧
  decode 0b00100001000000001101100000000000#32 = .ok (.stcPack 0xD800#16) ∧
  decode 0b00100010000000001111111111111111#32 = .ok (.stcUnpack 65535#16) ∧
  decode 0b00110000000000000000000000000001#32 = .ok (.rdStat .dstat)

/-! ## One step -/

/-- R45: when the host presents a legal word, the step is the execution of the command it decodes to, with the event taken
and nothing else around it. -/
def Obligations.StepExecutesTheDecodedCommand : Prop :=
  ∀ (s : State) (w : CommandWord) (rest : List HostEvent) (i : Instr),
    s.host.inputs = .command w :: rest → decode w = .ok i →
    step s = exec i { block := s.block, host := { inputs := rest, responses := s.host.responses } }

/-- R140, R26: RESET sets both channels to their reset state, produces no response, and leaves every piece of state at the
value R26 lists; the machine right after reset is that block. -/
def Obligations.ResetLeavesTheListedValues : Prop :=
  (∀ (s : State) (rest : List HostEvent), s.host.inputs = .reset :: rest →
    step s = .next { block := State.reset.block, host := { inputs := rest, responses := s.host.responses } }) ∧
  State.reset.block.enc.st = .idle ∧ State.reset.block.enc.p = [] ∧ State.reset.block.enc.ct.next = 256 ∧
  State.reset.block.dec.st = .idle ∧ State.reset.block.dec.pv = false ∧ State.reset.block.dec.prev = [] ∧
  State.reset.block.dec.ct.next = 256 ∧
  (∀ k, k ≤ 255 → ctGet State.reset.block.enc.ct k = some [BitVec.ofNat 8 k] ∧
    ctGet State.reset.block.dec.ct k = some [BitVec.ofNat 8 k]) ∧
  (∀ k, 256 ≤ k → ctGet State.reset.block.enc.ct k = none ∧ ctGet State.reset.block.dec.ct k = none) ∧
  estat State.reset.block = 0x00000100#32 ∧ dstat State.reset.block = 0x00000100#32

/-- The model's choice (log entry 3) resting on R134, "nothing wakes it but a command": with no event presented the machine
holds its state. -/
def Obligations.WithoutAnEventTheStateHolds : Prop := ∀ s : State, s.host.inputs = [] → step s = .next s

/-! ## The Code Table primitives -/

/-- R61: CT.GET gives `[k]` for a seed in every table, an entry exactly below `next`, `absent` from there on. -/
def Obligations.GetReadsBelowNext : Prop :=
  ∀ T : CodeTable,
    (∀ k, k ≤ 255 → ctGet T k = some [BitVec.ofNat 8 k]) ∧
    (∀ k, k < T.next → ∃ q, ctGet T k = some q) ∧
    (∀ k, T.next ≤ k → ctGet T k = none) ∧
    (∀ k j, k = 256 + j → ctGet T k = T.assigned[j]?)

/-- R62: CT.FIND gives the least index whose entry is the sequence, `absent` if there is none; a single symbol is found at
its own value in every table; the empty sequence is in no table whose entries have length 2 or more. -/
def Obligations.FindGivesTheLeastMatch : Prop :=
  ∀ (T : CodeTable) (q : SymSeq),
    (∀ k, ctFind T q = some k ↔ k < T.next ∧ ctGet T k = some q ∧ ∀ j, j < k → ctGet T j ≠ some q) ∧
    (ctFind T q = none ↔ ∀ k, k < T.next → ctGet T k ≠ some q) ∧
    (∀ c : Symbol, ctFind T [c] = some c.toNat) ∧
    (T.wf = true → ctFind T [] = none)

/-- R63: CT.INSERT assigns the next unused code, after a table reset exactly when `next = 65536`; no other location reads
differently. -/
def Obligations.InsertAssignsTheNextCode : Prop :=
  ∀ (T : CodeTable) (q : SymSeq),
    (T.next = 65536 →
      (ctInsert T q).1 = 256 ∧ (ctInsert T q).2.next = 257 ∧ ctGet (ctInsert T q).2 256 = some q ∧
      (∀ k, 256 < k → ctGet (ctInsert T q).2 k = none)) ∧
    (T.next ≠ 65536 →
      (ctInsert T q).1 = T.next ∧ (ctInsert T q).2.next = T.next + 1 ∧ (ctInsert T q).2.next ≤ 65536 ∧
      ctGet (ctInsert T q).2 T.next = some q ∧ (∀ k, k ≠ T.next → ctGet (ctInsert T q).2 k = ctGet T k)) ∧
    (∀ k, k ≤ 255 → ctGet (ctInsert T q).2 k = some [BitVec.ofNat 8 k])

/-- R65: a table never holds more than 65280 assigned entries, and `n` insertions after an initialisation make
`floor((n - 1) / 65280)` table resets and leave the last `(n - 1) mod 65280 + 1` sequences. -/
def Obligations.ResetsAreCountedByInsertions : Prop :=
  (∀ T : CodeTable, T.next ≤ 65536) ∧
  (insertAll [] 0 CodeTable.initial = (0, CodeTable.initial)) ∧
  (∀ qs : List SymSeq, qs ≠ [] →
    (insertAll qs 0 CodeTable.initial).1 = (qs.length - 1) / 65280 ∧
    (insertAll qs 0 CodeTable.initial).2.assigned = qs.drop (65280 * ((qs.length - 1) / 65280)))

/-! ## The encoder commands -/

/-- R70: ENC.START, in every state. -/
def Obligations.EncStartBeginsACall : Prop :=
  ∀ s : State, exec .encStart s =
    .next (s.answered { st := .run, p := [], ct := CodeTable.initial } s.block.dec { status := .ok, out := [] })

/-- R71: ENC.SYM in IDLE, on a hit, and on a miss. The code is the old prefix's in the table before the insertion. -/
def Obligations.EncSymExtendsOrEmits : Prop :=
  ∀ (s : State) (c : Symbol),
    (s.block.enc.st = .idle →
      exec (.encSym c) s = .next (s.answered s.block.enc s.block.dec { status := .errSeq, out := [] })) ∧
    (s.block.enc.st = .run → (∃ j, ctFind s.block.enc.ct (s.block.enc.p ++ [c]) = some j) →
      exec (.encSym c) s =
        .next (s.answered { st := .run, p := s.block.enc.p ++ [c], ct := s.block.enc.ct } s.block.dec
          { status := .ok, out := [] })) ∧
    (∀ k, s.block.enc.st = .run → ctFind s.block.enc.ct (s.block.enc.p ++ [c]) = none →
      ctFind s.block.enc.ct s.block.enc.p = some k →
      exec (.encSym c) s =
        .next (s.answered
          { st := .run, p := [c], ct := (ctInsert s.block.enc.ct (s.block.enc.p ++ [c])).2 } s.block.dec
          { status := .ok, out := [.code (BitVec.ofNat 16 k)] })) ∧
    (s.block.enc.st = .run → s.block.enc.p = [] →
      exec (.encSym c) s =
        .next (s.answered { st := .run, p := [c], ct := s.block.enc.ct } s.block.dec { status := .ok, out := [] }))

/-- R72: ENC.END in IDLE, with an empty prefix, and with a prefix; the channel is left in its reset state. -/
def Obligations.EncEndFlushesThePrefix : Prop :=
  ∀ s : State,
    (s.block.enc.st = .idle →
      exec .encEnd s = .next (s.answered s.block.enc s.block.dec { status := .errSeq, out := [] })) ∧
    (s.block.enc.st = .run → s.block.enc.p = [] →
      exec .encEnd s = .next (s.answered { st := .idle, p := [], ct := CodeTable.initial } s.block.dec
        { status := .ok, out := [] })) ∧
    (∀ k, s.block.enc.st = .run → s.block.enc.p ≠ [] → ctFind s.block.enc.ct s.block.enc.p = some k →
      exec .encEnd s = .next (s.answered { st := .idle, p := [], ct := CodeTable.initial } s.block.dec
        { status := .ok, out := [.code (BitVec.ofNat 16 k)] }))

/-- R78: a code that an encoder command emits is below the table's `next` at that moment and is the code of the prefix. -/
def Obligations.EmittedCodesAreAssigned : Prop :=
  ∀ (i : Instr) (s t : State) (k : Code),
    i.piece = .enc → exec i s = .next t →
    t.host.responses = s.host.responses ++ [{ status := .ok, out := [.code k] }] →
    k.toNat < s.block.enc.ct.next ∧ ctGet s.block.enc.ct k.toNat = some s.block.enc.p

/-- The frame of ENC.SYM on memory (R31, R64, R71): on a miss every location of E.ct but the one the insertion assigns
reads as in the table after the table-reset test; on a hit or a rejection every location reads as before; D.ct always. -/
def Obligations.EncSymWritesOneLocation : Prop :=
  ∀ (s t : State) (c : Symbol), exec (.encSym c) s = .next t →
    (∀ k, ctGet t.block.dec.ct k = ctGet s.block.dec.ct k) ∧
    ((s.block.enc.st = .idle ∨ ctFind s.block.enc.ct (s.block.enc.p ++ [c]) ≠ none) →
      ∀ k, ctGet t.block.enc.ct k = ctGet s.block.enc.ct k) ∧
    (s.block.enc.st = .run → ctFind s.block.enc.ct (s.block.enc.p ++ [c]) = none →
      ctGet t.block.enc.ct (ctInsert s.block.enc.ct (s.block.enc.p ++ [c])).1 = some (s.block.enc.p ++ [c]) ∧
      (∀ k, k ≠ (ctInsert s.block.enc.ct (s.block.enc.p ++ [c])).1 →
        ctGet t.block.enc.ct k = if s.block.enc.ct.next = 65536 then ctGet CodeTable.initial k
          else ctGet s.block.enc.ct k))

/-! ## The decoder commands -/

/-- R80: DEC.START, in every state, ERR included. -/
def Obligations.DecStartBeginsACall : Prop :=
  ∀ s : State, exec .decStart s =
    .next (s.answered s.block.enc { st := .run, pv := false, prev := [], ct := CodeTable.initial }
      { status := .ok, out := [] })

/-- R81, R126: DEC.CODE in IDLE and in ERR; in RUN, with `T` the table after step (a): an ordinary code without and with a
`previous`, the self-referential code, and the DecodeError. -/
def Obligations.DecCodeResolvesInsertsAndOutputs : Prop :=
  ∀ (s : State) (k : Code) (d : DecChannel) (T : CodeTable),
    d = s.block.dec → T = (if d.pv = true ∧ d.ct.next = 65536 then CodeTable.initial else d.ct) →
    (d.st = .idle → exec (.decCode k) s = .next (s.answered s.block.enc d { status := .errSeq, out := [] })) ∧
    (d.st = .err → exec (.decCode k) s = .next (s.answered s.block.enc d { status := .errDecode, out := [] })) ∧
    (∀ entry, d.st = .run → d.pv = false → ctGet T k.toNat = some entry →
      exec (.decCode k) s = .next (s.answered s.block.enc { st := .run, pv := true, prev := entry, ct := T }
        { status := .ok, out := entry.map .symbol })) ∧
    (∀ c rest, d.st = .run → d.pv = true → ctGet T k.toNat = some (c :: rest) →
      exec (.decCode k) s = .next (s.answered s.block.enc
        { st := .run, pv := true, prev := c :: rest, ct := (ctInsert T (d.prev ++ [c])).2 }
        { status := .ok, out := (c :: rest).map .symbol })) ∧
    (∀ c rest, d.st = .run → d.pv = true → k.toNat = T.next → d.prev = c :: rest →
      exec (.decCode k) s = .next (s.answered s.block.enc
        { st := .run, pv := true, prev := d.prev ++ [c], ct := (ctInsert T (d.prev ++ [c])).2 }
        { status := .ok, out := (d.prev ++ [c]).map .symbol })) ∧
    (d.st = .run → (T.next < k.toNat ∨ (k.toNat = T.next ∧ d.pv = false)) →
      exec (.decCode k) s = .next (s.answered s.block.enc
        { st := .err, pv := false, prev := [], ct := CodeTable.initial } { status := .errDecode, out := [] }))

/-- R83, R121: in RUN, DEC.CODE raises DecodeError exactly when `k > n`, or `k = n` without a `previous`, and succeeds
exactly when `k < n`, or `k = n` with one; `n` is `next` after the table-reset test. -/
def Obligations.DecodeErrorExactlyWhenUnresolvable : Prop :=
  ∀ (s : State) (k : Code) (n : Nat),
    DecInv s.block.dec → s.block.dec.st = .run →
    n = (if s.block.dec.pv = true ∧ s.block.dec.ct.next = 65536 then 256 else s.block.dec.ct.next) →
    ∃ t r, exec (.decCode k) s = .next t ∧ t.host.responses = s.host.responses ++ [r] ∧
      (r.status = .errDecode ↔ (n < k.toNat ∨ (k.toNat = n ∧ s.block.dec.pv = false))) ∧
      (r.status = .ok ↔ (k.toNat < n ∨ (k.toNat = n ∧ s.block.dec.pv = true))) ∧
      (r.status = .errDecode ↔ t.block.dec.st = .err)

/-- R82: DEC.END in IDLE, in ERR, and in RUN, where the channel is left in its reset state. -/
def Obligations.DecEndClosesTheCall : Prop :=
  ∀ s : State,
    (s.block.dec.st = .idle →
      exec .decEnd s = .next (s.answered s.block.enc s.block.dec { status := .errSeq, out := [] })) ∧
    (s.block.dec.st = .err →
      exec .decEnd s = .next (s.answered s.block.enc s.block.dec { status := .errDecode, out := [] })) ∧
    (s.block.dec.st = .run →
      exec .decEnd s = .next (s.answered s.block.enc { st := .idle, pv := false, prev := [], ct := CodeTable.initial }
        { status := .ok, out := [] }))

/-- The frame of DEC.CODE on memory (R31, R64, R81), where it answers OK: without a `previous` every location of D.ct reads
as before; with one, every location but the code about to be assigned reads as in the table after step (a). E.ct always. -/
def Obligations.DecCodeWritesOneLocation : Prop :=
  ∀ (s t : State) (k : Code), exec (.decCode k) s = .next t →
    (∀ j, ctGet t.block.enc.ct j = ctGet s.block.enc.ct j) ∧
    (t.block.dec.st = .run → s.block.dec.pv = false →
      ∀ j, ctGet t.block.dec.ct j = ctGet s.block.dec.ct j) ∧
    (t.block.dec.st = .run → s.block.dec.pv = true →
      (∃ c rest, t.block.dec.prev = c :: rest ∧
        ctGet t.block.dec.ct (decMakeRoom s.block.dec).next = some (s.block.dec.prev ++ [c])) ∧
      (∀ j, j ≠ (decMakeRoom s.block.dec).next →
        ctGet t.block.dec.ct j = if s.block.dec.ct.next = 65536 then ctGet CodeTable.initial j
          else ctGet s.block.dec.ct j))

/-- R127, R128: while the decoder is in ERR, whatever the host presents but DEC.START and RESET leaves the decoder channel
as it is, and every decoder command answers ERR_DECODE with no output. -/
def Obligations.ErrIsLeftOnlyByStartOrReset : Prop :=
  ∀ (m : State) (events : List HostEvent),
    m.block.dec.st = .err → (∀ e ∈ events, e ≠ .reset ∧ e ≠ .command (encode .decStart)) →
    ∀ t, issue m events = .next t →
      t.block.dec = m.block.dec ∧
      ∀ r ∈ responsesTo .dec events t.host.responses, r = { status := .errDecode, out := [] }

/-! ## Out of sequence, transport, status -/

/-- R122: ENC.SYM and ENC.END in IDLE, DEC.CODE and DEC.END in IDLE answer ERR_SEQ; neither channel changes. -/
def Obligations.OutOfSequenceIsRejected : Prop :=
  ∀ (s : State) (i : Instr),
    ((s.block.enc.st = .idle ∧ (i = .encEnd ∨ ∃ c, i = .encSym c)) ∨
      (s.block.dec.st = .idle ∧ (i = .decEnd ∨ ∃ k, i = .decCode k))) →
    exec i s = .next (s.answered s.block.enc s.block.dec { status := .errSeq, out := [] })

/-- R90: STC.PACK, in every state: one text unit of the code's value; no state written. -/
def Obligations.StcPackGivesTheUnitOfTheValue : Prop :=
  ∀ (s : State) (k : Code),
    exec (.stcPack k) s = .next (s.answered s.block.enc s.block.dec { status := .ok, out := [.unit k] })

/-- R91: STC.UNPACK, in every state: one code of the unit's value; no state written. -/
def Obligations.StcUnpackGivesTheCodeOfTheValue : Prop :=
  ∀ (s : State) (u : TextUnit),
    exec (.stcUnpack u) s = .next (s.answered s.block.enc s.block.dec { status := .ok, out := [.code u] })

/-- R92: applied item by item to a sequence, packing and unpacking keep values, length and order, from every state. -/
def Obligations.TransportIsABijectionOnSequences : Prop :=
  ∀ (m m' : State) (vs : List (BitVec 16)),
    call Item.unit? (packProgram vs) m = .value vs ∧ call Item.code? (unpackProgram vs) m = .value vs ∧
    (call Item.unit? (packProgram vs) m).andThen (fun us => call Item.code? (unpackProgram us) m') = .value vs

/-- R100: RD.STAT, in every state: one word, the selected status register; no state written. -/
def Obligations.RdStatReadsTheSelectedRegister : Prop :=
  ∀ s : State,
    exec (.rdStat .estat) s = .next (s.answered s.block.enc s.block.dec { status := .ok, out := [.word (estat s.block)] }) ∧
    exec (.rdStat .dstat) s = .next (s.answered s.block.enc s.block.dec { status := .ok, out := [.word (dstat s.block)] })

/-- R101: every field of ESTAT, the value after RESET, and its only IDLE value. -/
def Obligations.EstatFields : Prop :=
  ∀ b : Block,
    (estat b).toNat % 2 ^ 17 = b.enc.ct.next ∧
    (estat b).getLsbD 16 = b.enc.ct.full ∧ (b.enc.ct.full = true ↔ b.enc.ct.next = 65536) ∧
    (estat b).toNat / 2 ^ 17 % 2 ^ 7 = 0 ∧
    (estat b).toNat / 2 ^ 24 % 4 = (match b.enc.st with | .idle => 0 | .run => 1) ∧
    (estat b).toNat / 2 ^ 26 % 2 = (if b.enc.p = [] then 0 else 1) ∧
    (estat b).toNat / 2 ^ 27 = 0 ∧
    estat State.reset.block = 0x00000100#32 ∧
    (EncInv b.enc → b.enc.st = .idle → estat b = 0x00000100#32)

/-- R102: every field of DSTAT, the value after RESET, its only IDLE and ERR values, and NEXT without a `previous`. -/
def Obligations.DstatFields : Prop :=
  ∀ b : Block,
    (dstat b).toNat % 2 ^ 17 = b.dec.ct.next ∧
    (dstat b).getLsbD 16 = b.dec.ct.full ∧ (b.dec.ct.full = true ↔ b.dec.ct.next = 65536) ∧
    (dstat b).toNat / 2 ^ 17 % 2 ^ 7 = 0 ∧
    (dstat b).toNat / 2 ^ 24 % 4 = (match b.dec.st with | .idle => 0 | .run => 1 | .err => 2) ∧
    (dstat b).toNat / 2 ^ 26 % 2 = (if b.dec.pv = true then 1 else 0) ∧
    (dstat b).toNat / 2 ^ 27 = 0 ∧
    dstat State.reset.block = 0x00000100#32 ∧
    (DecInv b.dec → b.dec.st = .idle → dstat b = 0x00000100#32) ∧
    (DecInv b.dec → b.dec.st = .err → dstat b = 0x02000100#32) ∧
    (DecInv b.dec → b.dec.st = .run → b.dec.pv = false → b.dec.ct.next = 256)

/-! ## Invariants and whole-machine rules -/

/-- The invariants hold right after reset. -/
def Obligations.InvariantsHoldAtReset : Prop := State.reset.Inv

/-- R45, R152 and R19, R27, R66, R73: from every state with the invariants the step answers a next state, whatever the host
presents, and that state has them again. -/
def Obligations.StepAnswersAndKeepsTheInvariants : Prop := ∀ s : State, s.Inv → ∃ t, step s = .next t ∧ t.Inv

/-- R73: at every command boundary of every run from reset with `E.st = RUN`, the prefix is empty or in the table; and no
stream of events, legal or not, stops the machine. -/
def Obligations.PrefixIsAlwaysInTheTable : Prop :=
  ∀ events : List HostEvent, ∃ t, issue State.reset events = .next t ∧
    (t.block.enc.st = .run → t.block.enc.p = [] ∨ ∃ k, ctFind t.block.enc.ct t.block.enc.p = some k)

/-- R27: on every run from reset, IDLE and ERR have exactly one data state each. -/
def Obligations.IdleAndErrAreCanonical : Prop :=
  ∀ (events : List HostEvent) (t : State), issue State.reset events = .next t →
    (t.block.enc.st = .idle → t.block.enc.p = [] ∧ t.block.enc.ct = CodeTable.initial) ∧
    ((t.block.dec.st = .idle ∨ t.block.dec.st = .err) →
      t.block.dec.pv = false ∧ t.block.dec.prev = [] ∧ t.block.dec.ct = CodeTable.initial)

/-- R19 and R66 on every run from reset: `next` in range, constant seeds, assigned entries of length 2 or more, and in E.ct
no sequence under two codes. -/
def Obligations.TablesKeepTheirInvariants : Prop :=
  ∀ (events : List HostEvent) (t : State), issue State.reset events = .next t →
    ∀ T, (T = t.block.enc.ct ∨ T = t.block.dec.ct) →
      256 ≤ T.next ∧ T.next ≤ 65536 ∧
      (∀ k, k ≤ 255 → ctGet T k = some [BitVec.ofNat 8 k]) ∧
      (∀ k q, 256 ≤ k → ctGet T k = some q → 2 ≤ q.length) ∧
      (T = t.block.enc.ct → ∀ j k q, ctGet T j = some q → ctGet T k = some q → j = k)

/-- R64, R19 (d): in one step an entry of either table keeps its code, or all assigned entries go together. -/
def Obligations.EntriesAreNeverChangedOneByOne : Prop :=
  ∀ s t : State, step s = .next t →
    (∀ T U, (T = s.block.enc.ct ∧ U = t.block.enc.ct) ∨ (T = s.block.dec.ct ∧ U = t.block.dec.ct) →
      (T.next ≤ U.next ∧ ∀ k q, ctGet T k = some q → ctGet U k = some q) ∨
      U = CodeTable.initial ∨
      (T.next = 65536 ∧ ∃ q, U.assigned = [q]))

/-- R7: the encoder's prefix never exceeds 65281 symbols. -/
def Obligations.EncoderPrefixIsBounded : Prop := ∀ e : EncChannel, EncInv e → e.p.length ≤ 65281

/-- R31, R67: no command but those of ENC touches the encoder channel and none but those of DEC the decoder channel; only
ENC.SYM makes E.ct grow and only DEC.CODE D.ct; nothing touches what the host will present. -/
def Obligations.CommandsReachTheirOwnChannelOnly : Prop :=
  ∀ (i : Instr) (s t : State), exec i s = .next t →
    (i.piece ≠ .enc → t.block.enc = s.block.enc) ∧
    (i.piece ≠ .dec → t.block.dec = s.block.dec) ∧
    (s.block.enc.ct.next < t.block.enc.ct.next → ∃ c, i = .encSym c) ∧
    (s.block.dec.ct.next < t.block.dec.ct.next → ∃ k, i = .decCode k) ∧
    t.host.inputs = s.host.inputs

/-- R50, R120: every command gives exactly one response, its items all of one kind and of the kind and number of its
command, and none unless the status is OK; only DEC.CODE and DEC.END answer ERR_DECODE, only they and ENC.SYM and ENC.END
ERR_SEQ, and none ERR_ILLEGAL. -/
def Obligations.ResponsesHaveTheirCommandsShape : Prop :=
  ∀ (i : Instr) (s t : State), s.Inv → exec i s = .next t →
    ∃ r, t.host.responses = s.host.responses ++ [r] ∧ oneKind r.out ∧
      (r.status ≠ .ok → r.out = []) ∧ r.status ≠ .errIllegal ∧
      (r.status = .errDecode → (∃ k, i = .decCode k) ∨ i = .decEnd) ∧
      (r.status = .errSeq → (∃ c, i = .encSym c) ∨ i = .encEnd ∨ (∃ k, i = .decCode k) ∨ i = .decEnd) ∧
      ((∃ c, i = .encSym c) ∨ i = .encEnd → r.out = [] ∨ ∃ k, r.out = [.code k]) ∧
      ((∃ k, i = .decCode k) → r.status = .ok → ∃ c rest, r.out = (c :: rest).map .symbol) ∧
      ((i = .encStart ∨ i = .decStart ∨ i = .decEnd) → r.out = []) ∧
      ((∃ k, i = .stcPack k) → ∃ u, r.out = [.unit u]) ∧
      ((∃ u, i = .stcUnpack u) → ∃ k, r.out = [.code k]) ∧
      ((∃ sel, i = .rdStat sel) → ∃ v, r.out = [.word v])

/-- R22, R23: the control-state transition tables, RESET column and rejections included; outside RUN only a START changes
anything of a channel. -/
def Obligations.ControlStatesFollowTheTables : Prop :=
  (∀ (s t : State) (rest : List HostEvent), s.host.inputs = .reset :: rest → step s = .next t →
    t.block.enc.st = .idle ∧ t.block.dec.st = .idle) ∧
  (∀ (i : Instr) (s t : State), exec i s = .next t →
    (t.block.enc.st = match i with
      | .encStart => .run
      | .encEnd => .idle
      | _ => s.block.enc.st) ∧
    (∀ r, t.host.responses = s.host.responses ++ [r] →
      (t.block.dec.st = match i, s.block.dec.st with
        | .decStart, _ => .run
        | .decEnd, .run => .idle
        | .decCode _, .run => if r.status = .errDecode then .err else .run
        | _, st => st) ∧
      (s.block.enc.st = .idle → (i = .encEnd ∨ ∃ c, i = .encSym c) → r.status = .errSeq) ∧
      (s.block.dec.st = .idle → (i = .decEnd ∨ ∃ k, i = .decCode k) → r.status = .errSeq) ∧
      (s.block.dec.st = .err → (i = .decEnd ∨ ∃ k, i = .decCode k) → r.status = .errDecode)) ∧
    (s.block.enc.st = .idle → i ≠ .encStart → t.block.enc = s.block.enc) ∧
    (s.block.dec.st ≠ .run → i ≠ .decStart → t.block.dec = s.block.dec))

/-- R40, R115: the responses to the commands of one channel, and that channel's final state, are those of the subsequence of
the stream that concerns it (its own commands and RESET), however the two are interleaved and with whatever illegal words,
STC and RD.STAT commands between. -/
def Obligations.ChannelsDoNotInterfere : Prop :=
  ∀ (m t : State) (events : List HostEvent), issue m events = .next t →
    (∃ u, issue m (events.filter (concerns .enc)) = .next u ∧ u.block.enc = t.block.enc ∧
      u.host.responses = responsesTo .enc events t.host.responses) ∧
    (∃ u, issue m (events.filter (concerns .dec)) = .next u ∧ u.block.dec = t.block.dec ∧
      u.host.responses = responsesTo .dec events t.host.responses)

/-! ## The call-level functions -/

/-- R77, R88, R115: the result of a call is a function of its input alone: it is the same from every state of the machine,
whatever calls came before or are in progress. -/
def Obligations.CallsAreIndependentOfTheState : Prop :=
  ∀ m : State,
    (∀ s : SymSeq, compressFrom m s = compress s) ∧
    (∀ ks : List Code, decompressFrom m ks = decompress ks) ∧
    (∀ t : SymSeq, compressToStringFrom m t = compressToString t) ∧
    (∀ us : List TextUnit, decompressStringFrom m us = decompressString us)

/-- R109, R114: for every symbol sequence, of every length, table resets included, both round trips give it back. -/
def Obligations.RoundTripGivesTheInputBack : Prop :=
  ∀ s : SymSeq,
    (∃ ks, compress s = .value ks ∧ decompress ks = .value s) ∧
    (∃ us, compressToString s = .value us ∧ decompressString us = .value (s.map fun c => c.setWidth 16))

/-- R84: fed with the codes of a call, the decoder ends with the encoder's table and prefix as they stood before ENC.END,
having raised no DecodeError and output the call's symbols. -/
def Obligations.DecoderMirrorsTheEncoder : Prop :=
  ∀ (s : SymSeq) (t : State) (ks : List Code),
    s ≠ [] → issue State.reset (commandEvents (feedEncoder s)) = .next t → compress s = .value ks →
    ∃ u, issue State.reset (commandEvents (feedDecoder ks)) = .next u ∧
      resultOf Item.symbol? u.host.responses = .value s ∧
      u.block.dec = { st := .run, pv := true, prev := t.block.enc.p, ct := t.block.enc.ct }

/-- R110: the empty input of each of the four functions gives the empty output. -/
def Obligations.EmptyInputGivesEmptyOutput : Prop :=
  compress [] = .value [] ∧ decompress [] = .value [] ∧ compressToString [] = .value [] ∧ decompressString [] = .value []

/-- R111: the literal vectors of the source, and that a string whose adjacent pairs are pairwise different (the exact
condition, R76) compresses to itself. -/
def Obligations.SourceVectorsMatchExactly : Prop :=
  compress [116#8, 97#8, 114#8, 97#8, 116#8, 97#8, 116#8, 97#8] =
    .value [116#16, 97#16, 114#16, 97#16, 256#16, 256#16] ∧
  compressToString [116#8, 97#8, 114#8, 97#8, 116#8, 97#8, 116#8, 97#8] =
    .value [0x0074#16, 0x0061#16, 0x0072#16, 0x0061#16, 0x0100#16, 0x0100#16] ∧
  compressToString [84#8, 79#8, 66#8, 69#8, 79#8, 82#8, 78#8, 79#8, 84#8, 84#8, 79#8, 66#8, 69#8, 79#8, 82#8, 84#8,
      79#8, 66#8, 69#8, 79#8, 82#8, 78#8, 79#8, 84#8] =
    .value [84#16, 79#16, 66#16, 69#16, 79#16, 82#16, 78#16, 79#16, 84#16, 256#16, 258#16, 260#16, 265#16, 259#16,
      261#16, 263#16] ∧
  (∀ s : SymSeq, s.length ≤ 65281 → (adjacentPairs s).Nodup →
    compressToString s = .value (s.map fun c => c.setWidth 16))

/-- R75, R112: with `h` the ENC.SYM commands that extend a non-empty prefix, a call on `n >= 1` symbols outputs `n - h`
codes, and `next` before ENC.END is the value R75 gives; the empty call outputs nothing. -/
def Obligations.CodeCountIsSymbolsLessHits : Prop :=
  compress [] = .value [] ∧
  ∀ s : SymSeq, s ≠ [] → ∃ t ks h,
    issue State.reset (commandEvents (feedEncoder s)) = .next t ∧ compress s = .value ks ∧
    (t.host.responses.tail.countP fun r => decide (r.out = [])) = h + 1 ∧
    ks.length + h = s.length ∧
    t.block.enc.ct.next = if ks.length = 1 then 256 else 256 + (ks.length - 2) % 65280 + 1

/-- R76: an input of at most 65281 symbols compresses to its own symbol codes exactly when its adjacent pairs are pairwise
different. -/
def Obligations.NoRepeatedPairCompressesToItself : Prop :=
  ∀ s : SymSeq, s.length ≤ 65281 →
    (compress s = .value (s.map fun c => c.setWidth 16) ↔ (adjacentPairs s).Nodup)

/-- R87: a proper prefix of a code stream that decodes, decodes to a prefix of its symbols. -/
def Obligations.CutStreamDecodesToAPrefix : Prop :=
  ∀ (ks ls : List Code) (cs : List Symbol), decompress (ks ++ ls) = .value cs →
    ∃ bs, decompress ks = .value bs ∧ bs <+: cs

/-- R106, R128: a decoder call returns symbols or DecodeError, nothing else, and which of the two is told by the status of
DEC.END alone. -/
def Obligations.DecEndTellsTheCallsResult : Prop :=
  ∀ ks : List Code, ∃ t rs r,
    issue State.reset (commandEvents (decompressProgram ks)) = .next t ∧ t.host.responses = rs ++ [r] ∧
    ((r.status = .ok ∧ ∃ cs, decompress ks = .value cs) ∨
      (r.status = .errDecode ∧ decompress ks = CallResult.decodeError))

/-- R107, R108: the string functions are the code functions with every code or unit mapped one to one to the other kind of
the same value, and every output symbol to the character of its value. -/
def Obligations.StringFunctionsAreTheCodeFunctions : Prop :=
  (∀ s : SymSeq, ∃ ks, compress s = .value ks ∧ compressToString s = .value ks) ∧
  (∀ us : List TextUnit,
    (∃ cs, decompress us = .value cs ∧ decompressString us = .value (cs.map fun c => c.setWidth 16)) ∨
    (decompress us = CallResult.decodeError ∧ decompressString us = CallResult.decodeError))

/-- R55: the assembler refuses a source command exactly when its operand does not fit the format, and otherwise gives the
command with that operand. -/
def Obligations.AssemblerRefusesWhatDoesNotFit : Prop :=
  ∀ (m : Mnemonic) (o : Option Nat),
    (SourceCommand.toInstr ⟨m, o⟩ = none ↔
      ¬ (match m.format, o with
          | .Z, none => True
          | .S, some n => n ≤ 255
          | .K, some n => n ≤ 65535
          | .R, some n => n ≤ 1
          | _, _ => False)) ∧
    (∀ i, SourceCommand.toInstr ⟨m, o⟩ = some i → SourceCommand.ofInstr i = ⟨m, o⟩)
end

