-- ==== Sys2Proof/Laws/State.lean ====
section
/-! SUPPORT. One lemma per field per update of State, true by rfl, so that no later proof unfolds a record update. -/

namespace Sys2Proof.Machine

/-! ## respond -/
@[simp] theorem State.respond_block (s : State) (r : Response) : (s.respond r).block = s.block := rfl
@[simp] theorem State.respond_inputs (s : State) (r : Response) : (s.respond r).host.inputs = s.host.inputs := rfl
@[simp] theorem State.respond_responses (s : State) (r : Response) :
    (s.respond r).host.responses = s.host.responses ++ [r] := rfl

/-! ## setEnc, setDec -/
@[simp] theorem State.setEnc_enc (s : State) (e : EncChannel) : (s.setEnc e).block.enc = e := rfl
@[simp] theorem State.setEnc_dec (s : State) (e : EncChannel) : (s.setEnc e).block.dec = s.block.dec := rfl
@[simp] theorem State.setEnc_host (s : State) (e : EncChannel) : (s.setEnc e).host = s.host := rfl
@[simp] theorem State.setDec_dec (s : State) (d : DecChannel) : (s.setDec d).block.dec = d := rfl
@[simp] theorem State.setDec_enc (s : State) (d : DecChannel) : (s.setDec d).block.enc = s.block.enc := rfl
@[simp] theorem State.setDec_host (s : State) (d : DecChannel) : (s.setDec d).host = s.host := rfl

/-! ## present, presentNext, takeEvent -/
@[simp] theorem State.present_block (s : State) (es : List HostEvent) : (s.present es).block = s.block := rfl
@[simp] theorem State.present_inputs (s : State) (es : List HostEvent) : (s.present es).host.inputs = es := rfl
@[simp] theorem State.present_responses (s : State) (es : List HostEvent) : (s.present es).host.responses = [] := rfl
@[simp] theorem State.presentNext_block (s : State) (w : CommandWord) : (s.presentNext w).block = s.block := rfl
@[simp] theorem State.presentNext_inputs (s : State) (w : CommandWord) :
    (s.presentNext w).host.inputs = .command w :: s.host.inputs := rfl
@[simp] theorem State.presentNext_responses (s : State) (w : CommandWord) :
    (s.presentNext w).host.responses = s.host.responses := rfl

/-- With no event left nothing is taken. -/
theorem takeEvent_nil {s : State} (h : s.host.inputs = []) : takeEvent s = none := by
  simp [takeEvent, h]

/-- The event at the head is taken and the rest stays. -/
theorem takeEvent_cons {s : State} {e : HostEvent} {rest : List HostEvent} (h : s.host.inputs = e :: rest) :
    takeEvent s = some (e, { s with host := { s.host with inputs := rest } }) := by
  simp [takeEvent, h]

/-! ## reset -/
@[simp] theorem State.reset_enc : State.reset.block.enc = EncChannel.init := rfl
@[simp] theorem State.reset_dec : State.reset.block.dec = DecChannel.init := rfl
@[simp] theorem State.reset_inputs : State.reset.host.inputs = [] := rfl
@[simp] theorem State.reset_responses : State.reset.host.responses = [] := rfl

/-! ## the channels' reset states and the responses -/
@[simp] theorem EncChannel.init_st : EncChannel.init.st = .idle := rfl
@[simp] theorem EncChannel.init_p : EncChannel.init.p = [] := rfl
@[simp] theorem EncChannel.init_ct : EncChannel.init.ct = CodeTable.initial := rfl
@[simp] theorem DecChannel.init_st : DecChannel.init.st = .idle := rfl
@[simp] theorem DecChannel.init_pv : DecChannel.init.pv = false := rfl
@[simp] theorem DecChannel.init_prev : DecChannel.init.prev = [] := rfl
@[simp] theorem DecChannel.init_ct : DecChannel.init.ct = CodeTable.initial := rfl
@[simp] theorem accept_status (items : List Item) : (accept items).status = .ok := rfl
@[simp] theorem accept_out (items : List Item) : (accept items).out = items := rfl
@[simp] theorem reject_status (st : Status) : (reject st).status = st := rfl
@[simp] theorem reject_out (st : Status) : (reject st).out = [] := rfl

end Sys2Proof.Machine
end

