-- ==== Sys2Proof/Laws/Table.lean ====
section
/-! SUPPORT. What each Code Table primitive does, said once (41_code_table.md R60 to R64), and that each keeps the table's
form (10_state.md R19). -/

namespace Sys2Proof.Machine

/-- Two tables with the same assigned entries are equal. -/
theorem CodeTable.eq_of_assigned {T U : CodeTable} (h : T.assigned = U.assigned) : T = U := by
  cases T; cases U; cases h; rfl

@[simp] theorem CodeTable.initial_assigned : CodeTable.initial.assigned = [] := rfl
@[simp] theorem CodeTable.initial_next : CodeTable.initial.next = 256 := rfl
@[simp] theorem ctInit_eq (T : CodeTable) : ctInit T = CodeTable.initial := rfl

theorem CodeTable.next_eq (T : CodeTable) : T.next = 256 + T.assigned.length := rfl

/-- R19 (a), lower half. -/
theorem CodeTable.le_next (T : CodeTable) : 256 ≤ T.next := Nat.le_add_right _ _

/-- R19 (a), upper half. -/
theorem CodeTable.next_le (T : CodeTable) : T.next ≤ 65536 := by
  have := T.bound
  rw [T.next_eq]
  omega

/-! ## CT.GET -/

theorem ctGet_seed (T : CodeTable) {k : Nat} (h : k < 256) : ctGet T k = some [BitVec.ofNat 8 k] := by
  simp [ctGet, h]

theorem ctGet_assigned (T : CodeTable) (j : Nat) : ctGet T (256 + j) = T.assigned[j]? := by
  simp [ctGet]

theorem ctGet_of_le (T : CodeTable) {k : Nat} (h : 256 ≤ k) : ctGet T k = T.assigned[k - 256]? := by
  obtain ⟨j, rfl⟩ := Nat.exists_eq_add_of_le h
  simp [ctGet_assigned]

/-- An index is populated exactly below `T.next` (R18, R30). -/
theorem ctGet_isSome_iff (T : CodeTable) (k : Nat) : (ctGet T k).isSome = true ↔ k < T.next := by
  rcases Nat.lt_or_ge k 256 with h | h
  · simp [ctGet_seed T h, T.next_eq]
    omega
  · rw [ctGet_of_le T h, T.next_eq]
    simp
    omega

theorem ctGet_eq_none_iff (T : CodeTable) (k : Nat) : ctGet T k = none ↔ T.next ≤ k := by
  have := ctGet_isSome_iff T k
  rcases hg : ctGet T k with _ | q <;> simp [hg] at this <;> simp <;> omega

theorem lt_next_of_ctGet {T : CodeTable} {k : Nat} {q : SymSeq} (h : ctGet T k = some q) : k < T.next :=
  (ctGet_isSome_iff T k).1 (by simp [h])

/-- An entry of a table whose assigned entries have length 2 or more is not empty. -/
theorem ctGet_ne_nil {T : CodeTable} (hT : T.wf = true) {k : Nat} {q : SymSeq} (h : ctGet T k = some q) : q ≠ [] := by
  rcases Nat.lt_or_ge k 256 with hk | hk
  · rw [ctGet_seed T hk] at h
    rintro rfl
    simp at h
  · rw [ctGet_of_le T hk] at h
    have := List.mem_of_getElem? h
    simp only [CodeTable.wf, List.all_eq_true, decide_eq_true_eq] at hT
    have := hT q this
    rintro rfl
    simp at this

/-! ## CT.FIND -/

theorem ctFind_eq_some_iff (T : CodeTable) (q : SymSeq) (k : Nat) :
    ctFind T q = some k ↔ ctGet T k = some q ∧ ∀ j < k, ctGet T j ≠ some q := by
  unfold ctFind
  rw [List.find?_range_eq_some]
  simp only [decide_eq_true_eq, List.mem_range, Bool.not_eq_true', decide_eq_false_iff_not]
  constructor
  · rintro ⟨h, _, h3⟩
    exact ⟨h, h3⟩
  · rintro ⟨h, h3⟩
    exact ⟨h, lt_next_of_ctGet h, h3⟩

theorem ctFind_eq_none_iff (T : CodeTable) (q : SymSeq) : ctFind T q = none ↔ ∀ k, ctGet T k ≠ some q := by
  unfold ctFind
  simp only [List.find?_eq_none, List.mem_range, decide_eq_true_eq]
  exact ⟨fun h k hk => h k (lt_next_of_ctGet hk) hk, fun h k _ => h k⟩

theorem ctFind_isSome_iff (T : CodeTable) (q : SymSeq) : (ctFind T q).isSome = true ↔ ∃ k, ctGet T k = some q := by
  have := ctFind_eq_none_iff T q
  rcases hf : ctFind T q with _ | k
  · simpa [hf] using this
  · simpa using ⟨k, ((ctFind_eq_some_iff T q k).1 hf).1⟩

/-! ## the table reset and CT.INSERT -/

theorem ctMakeRoom_of_full {T : CodeTable} (h : T.next = 65536) : ctMakeRoom T = CodeTable.initial := by
  simp [ctMakeRoom, h]

theorem ctMakeRoom_of_not_full {T : CodeTable} (h : T.next ≠ 65536) : ctMakeRoom T = T := by
  simp [ctMakeRoom, h]

theorem ctMakeRoom_cases (T : CodeTable) :
    (T.next = 65536 ∧ ctMakeRoom T = CodeTable.initial) ∨ (T.next < 65536 ∧ ctMakeRoom T = T) := by
  rcases Nat.lt_or_ge T.next 65536 with h | h
  · exact .inr ⟨h, ctMakeRoom_of_not_full (Nat.ne_of_lt h)⟩
  · have h' := Nat.le_antisymm T.next_le h
    exact .inl ⟨h', ctMakeRoom_of_full h'⟩

@[simp] theorem ctInsert_code (T : CodeTable) (q : SymSeq) : (ctInsert T q).1 = (ctMakeRoom T).next := rfl
@[simp] theorem ctInsert_assigned (T : CodeTable) (q : SymSeq) :
    (ctInsert T q).2.assigned = (ctMakeRoom T).assigned ++ [q] := rfl
theorem ctInsert_next (T : CodeTable) (q : SymSeq) : (ctInsert T q).2.next = (ctMakeRoom T).next + 1 := by
  simp [CodeTable.next_eq, Nat.add_assoc]

/-! ## the form of a table is kept -/

@[simp] theorem wf_initial : CodeTable.initial.wf = true := rfl

theorem wf_ctMakeRoom {T : CodeTable} (h : T.wf = true) : (ctMakeRoom T).wf = true := by
  rcases ctMakeRoom_cases T with ⟨_, h'⟩ | ⟨_, h'⟩ <;> simp [h', h]

/-- Every memory operation keeps the canonical form: CT.INIT and the insertion of a sequence of length 2 or more (R63);
CT.GET and CT.FIND change nothing (R35). -/
theorem wf_ctInsert {T : CodeTable} (h : T.wf = true) {q : SymSeq} (hq : 2 ≤ q.length) : (ctInsert T q).2.wf = true := by
  have := wf_ctMakeRoom h
  simp only [CodeTable.wf, ctInsert_assigned, List.all_append, Bool.and_eq_true] at *
  exact ⟨this, by simpa using hq⟩

/-- The memory after reset has the canonical form. -/
theorem reset_memory_wf : Memory.wf State.reset.block.enc.ct = true ∧ Memory.wf State.reset.block.dec.ct = true :=
  ⟨rfl, rfl⟩

end Sys2Proof.Machine
end

