-- ==== Sys2Proof/Laws/Ops.lean ====
section
/-! SUPPORT. What the shared operations and the commands of the two channels can do, said once: if it answers, then one of
these cases holds. -/

namespace Sys2Proof.Machine

/-- An encoder command that answers a next state wrote its channel and delivered its response, and nothing else. -/
theorem onEnc_next_iff (f : EncChannel → Answer EncChannel) (s t : State) :
    onEnc f s = .next t ↔ ∃ e r, f s.block.enc = .ok (e, r) ∧ t = (s.setEnc e).respond r := by
  unfold onEnc
  rcases h : f s.block.enc with x | ⟨e, r⟩
  · simp
  · simp only [Host.Outcome.next.injEq, Except.ok.injEq, Prod.mk.injEq]
    exact ⟨fun ht => ⟨e, r, ⟨rfl, rfl⟩, ht.symm⟩, fun ⟨_, _, ⟨he, hr⟩, ht⟩ => by rw [ht, he, hr]⟩

/-- The same for a decoder command. -/
theorem onDec_next_iff (f : DecChannel → Answer DecChannel) (s t : State) :
    onDec f s = .next t ↔ ∃ d r, f s.block.dec = .ok (d, r) ∧ t = (s.setDec d).respond r := by
  unfold onDec
  rcases h : f s.block.dec with x | ⟨d, r⟩
  · simp
  · simp only [Host.Outcome.next.injEq, Except.ok.injEq, Prod.mk.injEq]
    exact ⟨fun ht => ⟨d, r, ⟨rfl, rfl⟩, ht.symm⟩, fun ⟨_, _, ⟨he, hr⟩, ht⟩ => by rw [ht, he, hr]⟩

@[simp] theorem answerOnly_eq (s : State) (r : Response) : answerOnly s r = .next (s.respond r) := rfl

/-- `q[0]` is there exactly when the sequence is not empty. -/
theorem firstSymbol_eq_ok_iff (q : SymSeq) (c : Symbol) : firstSymbol q = .ok c ↔ ∃ rest, q = c :: rest := by
  cases q <;> simp [firstSymbol, eq_comm]

/-- What ENC.SYM can do: reject, hit, miss (R71). -/
theorem encSym_cases {c : Symbol} {e e' : EncChannel} {r : Response} (h : encSym c e = .ok (e', r)) :
    (e.st = .idle ∧ e' = e ∧ r = reject .errSeq) ∨
    (e.st = .run ∧ (ctFind e.ct (e.p ++ [c])).isSome = true ∧ e' = { e with p := e.p ++ [c] } ∧ r = accept []) ∨
    (∃ k, e.st = .run ∧ ctFind e.ct (e.p ++ [c]) = none ∧ ctFind e.ct e.p = some k ∧
      e' = { e with ct := (ctInsert e.ct (e.p ++ [c])).2, p := [c] } ∧ r = accept [.code (codeOfIndex k)]) := by
  unfold encSym at h
  rcases hst : e.st with _ | _ <;> rw [hst] at h <;> simp only at h
  · cases h; exact .inl ⟨rfl, rfl, rfl⟩
  · rcases hq : ctFind e.ct (e.p ++ [c]) with _ | k <;> rw [hq] at h <;> simp only at h
    · unfold encMiss at h
      rcases hp : ctFind e.ct e.p with _ | k <;> rw [hp] at h <;> simp only at h
      · cases h
      · cases h; exact .inr (.inr ⟨k, rfl, rfl, rfl, by rw [hst], rfl⟩)
    · cases h; exact .inr (.inl ⟨rfl, rfl, by rw [hst], rfl⟩)

/-- What ENC.END can do: reject, or end the call with the code of a non-empty prefix (R72). -/
theorem encEnd_cases {e e' : EncChannel} {r : Response} (h : encEnd e = .ok (e', r)) :
    (e.st = .idle ∧ e' = e ∧ r = reject .errSeq) ∨
    (e.st = .run ∧ e.p = [] ∧ e' = EncChannel.init ∧ r = accept []) ∨
    (∃ k, e.st = .run ∧ e.p ≠ [] ∧ ctFind e.ct e.p = some k ∧ e' = EncChannel.init ∧
      r = accept [.code (codeOfIndex k)]) := by
  unfold encEnd at h
  rcases hst : e.st with _ | _ <;> rw [hst] at h <;> simp only at h
  · cases h; exact .inl ⟨rfl, rfl, rfl⟩
  · split at h
    · cases h; exact .inr (.inl ⟨rfl, ‹_›, rfl, rfl⟩)
    · rcases hp : ctFind e.ct e.p with _ | k <;> rw [hp] at h <;> simp only at h
      · cases h
      · cases h; exact .inr (.inr ⟨k, rfl, ‹_›, rfl, rfl, rfl⟩)

/-- Step (a) of DEC.CODE is the table reset of CT.INSERT, made only when an insertion is due. -/
theorem decMakeRoom_eq (d : DecChannel) : decMakeRoom d = if d.pv = true then ctMakeRoom d.ct else d.ct := by
  unfold decMakeRoom ctMakeRoom
  rcases hp : d.pv with _ | _
  · rw [if_neg (by simp), if_neg (by simp)]
  · by_cases hn : d.ct.next = Config.capacity
    · rw [if_pos ⟨rfl, hn⟩, if_pos rfl, if_pos hn]
    · rw [if_neg (fun h => hn h.2), if_pos rfl, if_neg hn]

/-- What step (b) of DEC.CODE can do (R81, R83). -/
theorem decResolve_cases {T : CodeTable} {pv : Bool} {prev : SymSeq} {k : Code} {o : Option SymSeq}
    (h : decResolve T pv prev k = .ok o) :
    (k.toNat < T.next ∧ o = ctGet T k.toNat ∧ o.isSome = true) ∨
    (∃ c rest, k.toNat = T.next ∧ pv = true ∧ prev = c :: rest ∧ o = some (prev ++ [c])) ∨
    ((T.next < k.toNat ∨ k.toNat = T.next ∧ pv = false) ∧ o = none) := by
  unfold decResolve at h
  split at h
  · rename_i hk
    cases h; exact .inl ⟨hk, rfl, (ctGet_isSome_iff T _).2 hk⟩
  · split at h
    · rename_i hk
      rcases prev with _ | ⟨c, rest⟩ <;> simp only [firstSymbol] at h
      · cases h
      · cases h; exact .inr (.inl ⟨c, rest, hk.1, hk.2, rfl, rfl⟩)
    · rename_i hlt hk
      cases h
      refine .inr (.inr ⟨?_, rfl⟩)
      rcases Nat.lt_or_ge T.next k.toNat with h | h
      · exact .inl h
      · have he : k.toNat = T.next := by omega
        exact .inr ⟨he, by cases pv <;> simp_all⟩

/-- What DEC.CODE can do: reject, echo, raise DecodeError, or output an entry (R81). -/
theorem decCode_cases {k : Code} {d d' : DecChannel} {r : Response} (h : decCode k d = .ok (d', r)) :
    (d.st = .idle ∧ d' = d ∧ r = reject .errSeq) ∨
    (d.st = .err ∧ d' = d ∧ r = reject .errDecode) ∨
    (d.st = .run ∧ decResolve (decMakeRoom d) d.pv d.prev k = .ok none ∧
      d' = { st := .err, pv := false, prev := [], ct := CodeTable.initial } ∧ r = reject .errDecode) ∨
    (∃ entry T, d.st = .run ∧ decResolve (decMakeRoom d) d.pv d.prev k = .ok (some entry) ∧
      decGrow (decMakeRoom d) d.pv d.prev entry = .ok T ∧
      d' = { d with pv := true, prev := entry, ct := T } ∧ r = accept (entry.map .symbol)) := by
  unfold decCode at h
  rcases hst : d.st with _ | _ | _ <;> rw [hst] at h <;> simp only at h
  · cases h; exact .inl ⟨rfl, rfl, rfl⟩
  · unfold decCodeRun at h
    rcases hr : decResolve (decMakeRoom d) d.pv d.prev k with x | _ | entry <;> rw [hr] at h <;> simp only at h
    · cases h
    · cases h; exact .inr (.inr (.inl ⟨rfl, rfl, rfl, rfl⟩))
    · rcases hg : decGrow (decMakeRoom d) d.pv d.prev entry with x | T <;> rw [hg] at h <;> simp only at h
      · cases h
      · cases h; exact .inr (.inr (.inr ⟨entry, T, rfl, rfl, hg, by rw [hst], rfl⟩))
  · cases h; exact .inr (.inl ⟨rfl, rfl, rfl⟩)

end Sys2Proof.Machine
end

