-- ==== Sys2Proof/Laws/PerInstr.lean ====
section
/-! SUPPORT. The family EncodeMatchesRow: the word the encoder gives a command is the command of the row of the opcode map
that bears its mnemonic (30_encoding.md R49). It is about commands as syntax; one lemma per constructor. -/

namespace Sys2Proof.Laws.EncodeMatchesRow

open Sys2Proof

/-- Some row of the opcode map has the command's mnemonic and holds of its word. -/
def Statement (i : Instr) : Prop := ∃ r ∈ opcodeMap, r.mnemonic = i.mnemonic ∧ r.holds (encode i) = true

/-- The fixed part of an S word. -/
theorem sWord_masked : ∀ c : Symbol, commandWord 0x02#8 (c.setWidth 16) &&& 0xFFFFFF00#32 = 0x02000000#32 := by
  decide

/-- Masking a K word with its row's mask clears the operand. -/
theorem kWord_masked (opc : BitVec 8) (v : BitVec 16) :
    commandWord opc v &&& 0xFFFF0000#32 = commandWord opc 0#16 := by
  have hm : (0xFFFF0000#32 : BitVec 32) = (255#8 ++ 255#8 ++ 0#16 : BitVec 32) := by decide
  have hf : ∀ x : BitVec 8, x &&& 255#8 = x := by decide
  rw [hm]
  unfold commandWord
  rw [BitVec.and_append, BitVec.and_append, hf]
  simp

theorem encStart : Statement .encStart := ⟨⟨.encStart, 0x01000000#32, 0xFFFFFFFF#32⟩, by decide, rfl, by decide⟩

theorem encSym (c : Symbol) : Statement (.encSym c) :=
  ⟨⟨.encSym, 0x02000000#32, 0xFFFFFF00#32⟩, by decide, rfl, by simp [OpcodeRow.holds, encode, sWord_masked]⟩

theorem encEnd : Statement .encEnd := ⟨⟨.encEnd, 0x03000000#32, 0xFFFFFFFF#32⟩, by decide, rfl, by decide⟩

theorem decStart : Statement .decStart := ⟨⟨.decStart, 0x11000000#32, 0xFFFFFFFF#32⟩, by decide, rfl, by decide⟩

theorem decCode (k : Code) : Statement (.decCode k) :=
  ⟨⟨.decCode, 0x12000000#32, 0xFFFF0000#32⟩, by decide, rfl, by
    simp only [OpcodeRow.holds, encode, kWord_masked]; decide⟩

theorem decEnd : Statement .decEnd := ⟨⟨.decEnd, 0x13000000#32, 0xFFFFFFFF#32⟩, by decide, rfl, by decide⟩

theorem stcPack (k : Code) : Statement (.stcPack k) :=
  ⟨⟨.stcPack, 0x21000000#32, 0xFFFF0000#32⟩, by decide, rfl, by
    simp only [OpcodeRow.holds, encode, kWord_masked]; decide⟩

theorem stcUnpack (u : TextUnit) : Statement (.stcUnpack u) :=
  ⟨⟨.stcUnpack, 0x22000000#32, 0xFFFF0000#32⟩, by decide, rfl, by
    simp only [OpcodeRow.holds, encode, kWord_masked]; decide⟩

theorem rdStat (sel : StatusReg) : Statement (.rdStat sel) := by
  cases sel
  · exact ⟨⟨.rdStat, 0x30000000#32, 0xFFFFFFFE#32⟩, by decide, rfl, by decide⟩
  · exact ⟨⟨.rdStat, 0x30000000#32, 0xFFFFFFFE#32⟩, by decide, rfl, by decide⟩

end Sys2Proof.Laws.EncodeMatchesRow
end

