-- ==== Sys2Proof/Machine/Assembler.lean ====
section
/-! DEFINITION. The assembler of command lines (30_encoding.md R55): a mnemonic in capitals, then for formats S, K and R one
operand as a decimal or `0x` hexadecimal numeral; `;` begins a comment. A line is a list of characters. What R55 does not
say of the text (blanks, empty lines, the case of hexadecimal digits) is log entry 15. -/

namespace Sys2Proof.Machine

/-- Why a line is refused. -/
inductive AsmError where
  /-- the first word is no mnemonic of R49 -/
  | unknownMnemonic
  /-- the second word is no numeral -/
  | badNumeral
  /-- the operand is missing, not wanted, or does not fit the format (R55) -/
  | operandDoesNotFit
  /-- the line has more than two words -/
  | tooManyWords
  deriving DecidableEq, Repr

/-- The spelling of each mnemonic (R49, R55). -/
def Mnemonic.text : Mnemonic → List Char
  | .encStart => ['E', 'N', 'C', '.', 'S', 'T', 'A', 'R', 'T']
  | .encSym => ['E', 'N', 'C', '.', 'S', 'Y', 'M']
  | .encEnd => ['E', 'N', 'C', '.', 'E', 'N', 'D']
  | .decStart => ['D', 'E', 'C', '.', 'S', 'T', 'A', 'R', 'T']
  | .decCode => ['D', 'E', 'C', '.', 'C', 'O', 'D', 'E']
  | .decEnd => ['D', 'E', 'C', '.', 'E', 'N', 'D']
  | .stcPack => ['S', 'T', 'C', '.', 'P', 'A', 'C', 'K']
  | .stcUnpack => ['S', 'T', 'C', '.', 'U', 'N', 'P', 'A', 'C', 'K']
  | .rdStat => ['R', 'D', '.', 'S', 'T', 'A', 'T']

/-- The nine mnemonics, in the order of R49. -/
def allMnemonics : List Mnemonic :=
  [.encStart, .encSym, .encEnd, .decStart, .decCode, .decEnd, .stcPack, .stcUnpack, .rdStat]

/-- The mnemonic a word spells. -/
def readMnemonic (word : List Char) : Option Mnemonic := allMnemonics.find? fun m => decide (Mnemonic.text m = word)

/-- A blank between words. -/
def isBlank (c : Char) : Bool := c == ' ' || c == '\t'

/-- The words of a line, split at blanks. -/
def lineWords (line : List Char) : List (List Char) :=
  (line.foldr (fun c ws => if isBlank c then [] :: ws else
    match ws with
    | [] => [[c]]
    | w :: rest => (c :: w) :: rest) [[]]).filter fun w => !w.isEmpty

/-- The value of a digit in a base of at most 16. -/
def digitValue (base : Nat) (c : Char) : Option Nat :=
  let v :=
    if '0' ≤ c ∧ c ≤ '9' then some (c.toNat - '0'.toNat)
    else if 'a' ≤ c ∧ c ≤ 'f' then some (c.toNat - 'a'.toNat + 10)
    else if 'A' ≤ c ∧ c ≤ 'F' then some (c.toNat - 'A'.toNat + 10)
    else none
  v.filter fun n => decide (n < base)

/-- The value of a run of digits after the value of those read before. -/
def readDigits (base : Nat) : Nat → List Char → Option Nat
  | acc, [] => some acc
  | acc, c :: rest =>
    match digitValue base c with
    | some v => readDigits base (acc * base + v) rest
    | none => none

/-- A decimal or `0x` hexadecimal numeral (R55). -/
def readNumeral : List Char → Option Nat
  | [] => none
  | '0' :: 'x' :: [] => none
  | '0' :: 'x' :: digits => readDigits 16 0 digits
  | digits => readDigits 10 0 digits

/-- The command of one line (R55): `none` for a line with no word before its comment. -/
def assembleLine (line : List Char) : Except AsmError (Option Instr) :=
  match lineWords (line.takeWhile fun c => c != ';') with
  | [] => .ok none
  | [w] =>
    match readMnemonic w with
    | none => .error .unknownMnemonic
    | some m =>
      match SourceCommand.toInstr ⟨m, none⟩ with
      | some i => .ok (some i)
      | none => .error .operandDoesNotFit
  | [w, v] =>
    match readMnemonic w with
    | none => .error .unknownMnemonic
    | some m =>
      match readNumeral v with
      | none => .error .badNumeral
      | some n =>
        match SourceCommand.toInstr ⟨m, some n⟩ with
        | some i => .ok (some i)
        | none => .error .operandDoesNotFit
  | _ => .error .tooManyWords

end Sys2Proof.Machine
end

