-- ==== Sys2Proof/Tests/Slice0.lean ====
section
/-! SUPPORT. The model's own tests: decoding of words written out from spec/30_encoding.md and 95_test_vectors.md V35 and
V36, the refusals of the well-formedness check, at most two single steps for each command with expected results from
95_test_vectors.md, and for each statement with hypotheses a witness that meets them. -/

namespace Sys2Proof.Tests

open Sys2Proof Sys2Proof.Machine

/-! ## Well-formedness: each check refuses an ill-formed command (R55) -/

theorem test_symbol_256_refused : SourceCommand.wellFormed ⟨.encSym, some 256⟩ = false := by decide
theorem test_code_65536_refused : SourceCommand.wellFormed ⟨.decCode, some 65536⟩ = false := by decide
theorem test_selector_2_refused : SourceCommand.wellFormed ⟨.rdStat, some 2⟩ = false := by decide
theorem test_missing_operand_refused :
    SourceCommand.wellFormed ⟨.encSym, none⟩ = false ∧ SourceCommand.wellFormed ⟨.stcPack, none⟩ = false ∧
    SourceCommand.wellFormed ⟨.rdStat, none⟩ = false := by decide
theorem test_unwanted_operand_refused : SourceCommand.wellFormed ⟨.encStart, some 0⟩ = false := by decide
theorem test_boundary_operands_pass :
    SourceCommand.wellFormed ⟨.encSym, some 255⟩ = true ∧ SourceCommand.wellFormed ⟨.stcUnpack, some 65535⟩ = true ∧
    SourceCommand.wellFormed ⟨.rdStat, some 1⟩ = true ∧ SourceCommand.wellFormed ⟨.decEnd, none⟩ = true := by decide

/-! ## Decoding: words written out bit by bit from R46, R47, R49 (V35), and the illegal words of V36 -/

theorem test_decode_encStart : decode 0b00000001000000000000000000000000#32 = .ok .encStart := by decide
theorem test_decode_encSym_116 : decode 0b00000010000000000000000001110100#32 = .ok (.encSym 116#8) := by decide
theorem test_decode_encEnd : decode 0b00000011000000000000000000000000#32 = .ok .encEnd := by decide
theorem test_decode_decStart : decode 0b00010001000000000000000000000000#32 = .ok .decStart := by decide
theorem test_decode_decCode_256 : decode 0b00010010000000000000000100000000#32 = .ok (.decCode 256#16) := by decide
theorem test_decode_decEnd : decode 0b00010011000000000000000000000000#32 = .ok .decEnd := by decide
theorem test_decode_stcPack_256 : decode 0b00100001000000000000000100000000#32 = .ok (.stcPack 256#16) := by decide
theorem test_decode_stcUnpack_D800 : decode 0b00100010000000001101100000000000#32 = .ok (.stcUnpack 0xD800#16) := by decide
theorem test_decode_rdStat_1 : decode 0b00110000000000000000000000000001#32 = .ok (.rdStat .dstat) := by decide
theorem test_decode_rejects_by_name :
    decode 0x00000000#32 = .error .unknownOpcode ∧ decode 0xFFFFFFFF#32 = .error .zeroFieldNotZero ∧
    decode 0x04000000#32 = .error .unknownOpcode ∧ decode 0x01000001#32 = .error .operandNotZero ∧
    decode 0x13000100#32 = .error .operandNotZero ∧ decode 0x02000100#32 = .error .symbolHighByteNotZero ∧
    decode 0x02010061#32 = .error .zeroFieldNotZero ∧ decode 0x30000002#32 = .error .selectorHighBitsNotZero := by decide
theorem test_encode_decCode_65535 : encode (.decCode 65535#16) = 0x1200FFFF#32 := by decide
theorem test_encode_rdStat_0 : encode (.rdStat .estat) = 0x30000000#32 := by decide
theorem test_table_word : decodeTableWord 32 0x220000FF = some (.stcUnpack 255#16) := by decide
theorem test_rows_disjoint :
    opcodeMap.Pairwise (fun r r' => r.pattern &&& (r.mask &&& r'.mask) ≠ r'.pattern &&& (r.mask &&& r'.mask)) := by decide

/-- R55's examples `ENC.SYM 0x74` and `ENC.SYM 116`, with a comment, and a symbol above 255 refused. -/
theorem test_assemble :
    assembleLine "ENC.SYM 0x74 ; t".toList = .ok (some (.encSym 116#8)) ∧
    assembleLine "ENC.SYM 116".toList = .ok (some (.encSym 116#8)) ∧
    assembleLine "ENC.SYM 256".toList = .error .operandDoesNotFit ∧
    assembleLine "; nothing".toList = .ok none := by decide

/-- R50's status values, and R6's ceiling as the bound of a table. -/
theorem test_status_values :
    Status.ok.bits = 0#4 ∧ Status.errIllegal.bits = 1#4 ∧ Status.errSeq.bits = 2#4 ∧ Status.errDecode.bits = 3#4 ∧
    Config.maxAssigned = 65280 ∧ Config.maxCode + 1 = Config.capacity := by decide

/-! ## Single steps -/

/-- The next state of an outcome, to compare by decide. -/
def nextOf : Host.Outcome State Fault Refusal → Option State
  | .next s => some s
  | .fault _ => none
  | .refused _ => none

/-- An encoder in RUN with a prefix and assigned entries; the decoder at reset. -/
def encAt (p : SymSeq) (T : CodeTable) : State :=
  { block := { enc := { st := .run, p := p, ct := T }, dec := DecChannel.init }, host := { inputs := [], responses := [] } }

/-- A decoder in RUN; the encoder at reset. -/
def decAt (pv : Bool) (prev : SymSeq) (T : CodeTable) : State :=
  { block := { enc := EncChannel.init, dec := { st := .run, pv := pv, prev := prev, ct := T } },
    host := { inputs := [], responses := [] } }

/-- A decoder in ERR. -/
def decErr : State :=
  { block := { enc := EncChannel.init, dec := { DecChannel.init with st := .err } }, host := { inputs := [], responses := [] } }

/-- A full table: 65280 assigned entries (R65). -/
def fullTable : CodeTable :=
  { assigned := List.replicate 65280 [1#8, 2#8], bound := by rw [List.length_replicate] }

theorem fullTable_next : fullTable.next = 65536 := by
  rw [CodeTable.next_eq, fullTable, List.length_replicate]

theorem fullTable_wf : fullTable.wf = true := by
  refine List.all_eq_true.2 fun q hq => ?_
  have h : q = [1#8, 2#8] := (List.mem_replicate.1 hq).2
  simp [h]

/-- P5: ENC.START inside a call abandons it. -/
theorem test_encStart :
    nextOf (exec .encStart (encAt [98#8] { assigned := [[97#8, 98#8]] })) =
      some ((encAt [] CodeTable.initial).respond { status := .ok, out := [] }) := by decide

/-- V1, second row: a miss emits the old prefix's code and inserts `[116, 97]` as 256. -/
theorem test_encSym_miss :
    nextOf (exec (.encSym 97#8) (encAt [116#8] CodeTable.initial)) =
      some ((encAt [97#8] { assigned := [[116#8, 97#8]] }).respond { status := .ok, out := [.code 116#16] }) := by decide

/-- V1, sixth row: a hit extends the prefix and outputs nothing. -/
theorem test_encSym_hit :
    nextOf (exec (.encSym 97#8) (encAt [116#8] { assigned := [[116#8, 97#8]] })) =
      some ((encAt [116#8, 97#8] { assigned := [[116#8, 97#8]] }).respond { status := .ok, out := [] }) := by decide

/-- V1, ENC.END: the code of the prefix, then the reset state. -/
theorem test_encEnd :
    nextOf (exec .encEnd (encAt [116#8, 97#8] { assigned := [[116#8, 97#8]] })) =
      some (State.reset.respond { status := .ok, out := [.code 256#16] }) := by decide

/-- P5: ENC.END in IDLE. -/
theorem test_encEnd_idle :
    nextOf (exec .encEnd State.reset) = some (State.reset.respond { status := .errSeq, out := [] }) := by decide

/-- P3: DEC.START ends the ERR state. -/
theorem test_decStart :
    nextOf (exec .decStart decErr) =
      some ((decAt false [] CodeTable.initial).respond { status := .ok, out := [] }) := by decide

/-- V22, fourth row: the self-referential case with a non-empty middle. -/
theorem test_decCode_selfReferential :
    nextOf (exec (.decCode 258#16) (decAt true [97#8, 98#8] { assigned := [[97#8, 98#8], [98#8, 97#8]] })) =
      some ((decAt true [97#8, 98#8, 97#8] { assigned := [[97#8, 98#8], [98#8, 97#8], [97#8, 98#8, 97#8]] }).respond
        { status := .ok, out := [.symbol 97#8, .symbol 98#8, .symbol 97#8] }) := by decide

/-- V32, V37: on a full table the reset precedes the lookup, so code 256 is self-referential and not the old entry. -/
theorem test_decCode_reset_before_resolve :
    exec (.decCode 256#16) (decAt true [240#8] fullTable) =
      .next ((decAt true [240#8, 240#8] { assigned := [[240#8, 240#8]] }).respond
        { status := .ok, out := [.symbol 240#8, .symbol 240#8] }) := by
  have h : decMakeRoom { st := .run, pv := true, prev := [240#8], ct := fullTable } = CodeTable.initial := by
    rw [decMakeRoom_eq, if_pos rfl, ctMakeRoom_of_full fullTable_next]
  simp only [exec, execDecCode, onDec, decCode, decCodeRun, decAt, h]
  rfl

/-- P3: DEC.END in ERR echoes ERR_DECODE and changes nothing. -/
theorem test_decEnd_err :
    nextOf (exec .decEnd decErr) = some (decErr.respond { status := .errDecode, out := [] }) := by decide

/-- P2: DEC.END after `[97, 256, 257]`. -/
theorem test_decEnd :
    nextOf (exec .decEnd (decAt true [97#8, 97#8, 97#8] { assigned := [[97#8, 97#8], [97#8, 97#8, 97#8]] })) =
      some (State.reset.respond { status := .ok, out := [] }) := by decide

/-- V28: STC.PACK and STC.UNPACK of `0xD800`, the former in the decoder's ERR state. -/
theorem test_stcPack :
    nextOf (exec (.stcPack 0xD800#16) decErr) = some (decErr.respond { status := .ok, out := [.unit 0xD800#16] }) := by decide
theorem test_stcUnpack :
    nextOf (exec (.stcUnpack 0xD800#16) State.reset) =
      some (State.reset.respond { status := .ok, out := [.code 0xD800#16] }) := by decide

/-- V29: ESTAT of V1 after the eighth ENC.SYM, and DSTAT after a DecodeError. -/
theorem test_rdStat_estat :
    estat (encAt [116#8, 97#8] { assigned := [[116#8, 97#8], [97#8, 114#8], [114#8, 97#8], [97#8, 116#8],
      [116#8, 97#8, 116#8]] }).block = 0x05000105#32 := by decide
theorem test_rdStat_dstat :
    nextOf (exec (.rdStat .dstat) decErr) =
      some (decErr.respond { status := .ok, out := [.word 0x02000100#32] }) := by decide

/-- V36 and R125: with the decoder in ERR, `0x12010061` answers ERR_ILLEGAL, not ERR_DECODE. -/
theorem test_illegal_before_control_state :
    nextOf (step (decErr.withFetchWord 32 0x12010061)) =
      some (decErr.respond { status := .errIllegal, out := [] }) := by decide

/-- V9: the insertion that finds 65536 codes in use assigns 256. -/
theorem test_insert_at_ceiling : (ctInsert fullTable [18#8, 33#8]).1 = 256 ∧ (ctInsert fullTable [18#8, 33#8]).2.next = 257 := by
  rw [ctInsert_code, ctInsert_next, ctMakeRoom_of_full fullTable_next]
  exact ⟨rfl, rfl⟩

/-! ## Witnesses: what meets the hypotheses of each statement -/

theorem encInv_init : EncInv EncChannel.init where
  entries := rfl
  entryBound := by simp
  distinct := by simp
  idle := fun _ => rfl
  prefixes := by intro n h0 h1; simp at h1; omega

theorem decInv_init : DecInv DecChannel.init where
  entries := rfl
  resting := fun _ => rfl
  absent := fun _ => ⟨rfl, rfl⟩
  present := by simp

/-- A busy encoder: prefix `[97, 98]`, entry 256 = `[97, 98]`. -/
theorem encInv_busy : EncInv (encAt [97#8, 98#8] { assigned := [[97#8, 98#8]] }).block.enc where
  entries := by decide
  entryBound := by decide
  distinct := by decide
  idle := by simp [encAt]
  prefixes := by
    intro n h0 h1
    have : n = 1 ∨ n = 2 := by simp [encAt] at h1; omega
    rcases this with rfl | rfl <;> decide

/-- A busy decoder: `previous` `[97]`, nothing assigned (after the first code of a call). -/
theorem decInv_busy : DecInv (decAt true [97#8] CodeTable.initial).block.dec where
  entries := rfl
  resting := by simp [decAt]
  absent := by simp [decAt]
  present := by simp [decAt]

/-- A decoder in ERR. -/
theorem decInv_err : DecInv decErr.block.dec where
  entries := rfl
  resting := fun _ => rfl
  absent := fun _ => ⟨rfl, rfl⟩
  present := by simp [decErr]

/-- A decoder that has just begun a call. -/
theorem decInv_begun : DecInv (decAt false [] CodeTable.initial).block.dec where
  entries := rfl
  resting := fun _ => rfl
  absent := fun _ => ⟨rfl, rfl⟩
  present := by simp [decAt]

/-- A decoder whose table is full. -/
theorem decInv_full : DecInv (decAt true [240#8] fullTable).block.dec where
  entries := fullTable_wf
  resting := by simp [decAt]
  absent := by simp [decAt]
  present := by simp [decAt]

theorem witness_EncodeOfDecodeIsTheWord : decode 0x1200FFFF#32 = .ok (.decCode 65535#16) := by decide
theorem witness_DecoderFollowsTheOpcodeMap :
    (⟨.encSym, 0x02000000#32, 0xFFFFFF00#32⟩ : OpcodeRow) ∈ opcodeMap ∧ 0x020000FF#32 &&& 0xFFFFFF00#32 = 0x02000000#32 := by
  decide
theorem witness_OperandIsTheWordsLowBits :
    decode 0x020000FF#32 = .ok (.encSym 255#8) ∧ decode 0x1200FFFF#32 = .ok (.decCode 65535#16) ∧
    decode 0x2100FFFF#32 = .ok (.stcPack 65535#16) ∧ decode 0x2200FFFF#32 = .ok (.stcUnpack 65535#16) ∧
    decode 0x30000000#32 = .ok (.rdStat .estat) ∧ decode 0x30000001#32 = .ok (.rdStat .dstat) ∧
    (255 : Nat) < 256 ∧ (65535 : Nat) < 65536 := by decide
theorem witness_IllegalWordChangesNothing :
    (decErr.presentNext 0x02000100#32).host.inputs = [.command 0x02000100#32] ∧
    ∀ r ∈ opcodeMap, 0x02000100#32 &&& r.mask ≠ r.pattern := by decide
theorem witness_StepExecutesTheDecodedCommand :
    (State.reset.presentNext 0x02000074#32).host.inputs = [.command 0x02000074#32] ∧
    decode 0x02000074#32 = .ok (.encSym 116#8) := by decide
theorem witness_ResetLeavesTheListedValues : (decErr.present [.reset]).host.inputs = [.reset] := rfl
theorem witness_WithoutAnEventTheStateHolds : decErr.host.inputs = [] := rfl
theorem witness_GetReadsBelowNext : 65535 < fullTable.next ∧ fullTable.next ≤ 65536 := by
  rw [fullTable_next]; decide
theorem witness_FindGivesTheLeastMatch : fullTable.wf = true := fullTable_wf
theorem witness_InsertAssignsTheNextCode :
    fullTable.next = 65536 ∧ (∃ T : CodeTable, T.next = 65535) ∧ CodeTable.initial.next ≠ 65536 := by
  refine ⟨fullTable_next, ⟨{ assigned := List.replicate 65279 [1#8, 2#8], bound := ?_ }, ?_⟩, by decide⟩
  · rw [List.length_replicate]; omega
  · rw [CodeTable.next_eq, List.length_replicate]
theorem witness_ResetsAreCountedByInsertions : ([[1#8, 2#8]] : List SymSeq) ≠ [] := by decide

/-- One witness for each clause: IDLE, a hit, a miss, a miss on a full table, an empty prefix. -/
theorem witness_EncSymExtendsOrEmits :
    State.reset.block.enc.st = .idle ∧
    ctFind (encAt [116#8] { assigned := [[116#8, 97#8]] }).block.enc.ct [116#8, 97#8] = some 256 ∧
    (ctFind CodeTable.initial [116#8, 97#8] = none ∧ ctFind CodeTable.initial [116#8] = some 116) ∧
    (encAt [] CodeTable.initial).block.enc.p = [] := by decide
theorem witness_EncSym_miss_on_full_table :
    ctFind fullTable [2#8, 1#8] = none ∧ ctFind fullTable [2#8] = some 2 := by
  constructor
  · rw [ctFind_eq_none_iff]
    intro k hk
    rcases Nat.lt_or_ge k 256 with h | h
    · simp [ctGet_seed fullTable h] at hk
    · rw [ctGet_of_le fullTable h] at hk
      have := List.mem_of_getElem? hk
      exact absurd (List.mem_replicate.1 this).2 (by decide)
  · rw [ctFind_eq_some_iff]
    refine ⟨by rw [ctGet_seed fullTable (by decide)], fun j hj => ?_⟩
    rw [ctGet_seed fullTable (by omega)]
    have : j = 0 ∨ j = 1 := by omega
    rcases this with rfl | rfl <;> decide
theorem witness_EncEndFlushesThePrefix :
    State.reset.block.enc.st = .idle ∧ (encAt [] CodeTable.initial).block.enc.p = [] ∧
    ctFind (encAt [97#8, 98#8] { assigned := [[97#8, 98#8]] }).block.enc.ct [97#8, 98#8] = some 256 := by decide
theorem witness_EmittedCodesAreAssigned :
    ∃ t, exec .encEnd (encAt [116#8, 97#8] { assigned := [[116#8, 97#8]] }) = .next t ∧
      t.host.responses = [{ status := .ok, out := [.code 256#16] }] := ⟨_, rfl, by decide⟩
theorem witness_EncSymWritesOneLocation :
    ∃ t, exec (.encSym 97#8) (encAt [116#8] CodeTable.initial) = .next t ∧
      ctFind CodeTable.initial [116#8, 97#8] = none :=
  ⟨(encAt [97#8] { assigned := [[116#8, 97#8]] }).respond { status := .ok, out := [.code 116#16] }, rfl, by decide⟩
theorem witness_EncSymWritesOneLocation_hit_and_idle :
    (∃ t, exec (.encSym 97#8) (encAt [116#8] { assigned := [[116#8, 97#8]] }) = .next t ∧
      ctFind (encAt [116#8] { assigned := [[116#8, 97#8]] }).block.enc.ct [116#8, 97#8] ≠ none) ∧
    (∃ t, exec (.encSym 97#8) State.reset = .next t ∧ State.reset.block.enc.st = .idle) :=
  ⟨⟨(encAt [116#8, 97#8] { assigned := [[116#8, 97#8]] }).respond { status := .ok, out := [] }, rfl, by decide⟩, ⟨_, rfl, rfl⟩⟩

/-- One witness for each clause, at the boundary codes: IDLE, ERR, a first code, an ordinary code, a self-referential code on
a full table (the one boundary value `k = n`), and the two DecodeError forms. -/
theorem witness_DecCodeResolvesInsertsAndOutputs :
    State.reset.block.dec.st = .idle ∧ decErr.block.dec.st = .err ∧
    ctGet (decAt false [] CodeTable.initial).block.dec.ct 255 = some [255#8] ∧
    ctGet (decAt true [97#8] { assigned := [[97#8, 98#8]] }).block.dec.ct 256 = some [97#8, 98#8] ∧
    (256#16).toNat = CodeTable.initial.next ∧ (decAt true [240#8] fullTable).block.dec.prev = [240#8] ∧
    CodeTable.initial.next < (257#16).toNat ∧ (decAt false [] CodeTable.initial).block.dec.pv = false :=
  ⟨rfl, rfl, by decide, by decide, by decide, rfl, by decide, rfl⟩
theorem witness_DecodeErrorExactlyWhenUnresolvable :
    DecInv (decAt true [240#8] fullTable).block.dec ∧ (decAt true [240#8] fullTable).block.dec.st = .run ∧
    DecInv (decAt false [] CodeTable.initial).block.dec := ⟨decInv_full, rfl, decInv_begun⟩
theorem witness_DecEndClosesTheCall :
    State.reset.block.dec.st = .idle ∧ decErr.block.dec.st = .err ∧ (decAt true [97#8] CodeTable.initial).block.dec.st = .run := by
  decide
theorem witness_DecCodeWritesOneLocation :
    (∃ t, exec (.decCode 256#16) (decAt true [240#8] fullTable) = .next t ∧ t.block.dec.st = .run) ∧
    (∃ t, exec (.decCode 97#16) (decAt false [] CodeTable.initial) = .next t ∧ t.block.dec.st = .run) :=
  ⟨⟨_, test_decCode_reset_before_resolve, rfl⟩, ⟨_, rfl, by decide⟩⟩
theorem witness_ErrIsLeftOnlyByStartOrReset :
    decErr.block.dec.st = .err ∧
    (∀ e ∈ [HostEvent.command 0x12000061#32, .command 0x13000000#32, .command 0x01000000#32],
      e ≠ .reset ∧ e ≠ .command (encode .decStart)) ∧
    ∃ t, issue decErr [HostEvent.command 0x12000061#32, .command 0x13000000#32, .command 0x01000000#32] = .next t :=
  ⟨rfl, by decide, _, rfl⟩
theorem witness_OutOfSequenceIsRejected : State.reset.block.enc.st = .idle ∧ State.reset.block.dec.st = .idle := by decide
theorem witness_EstatFields : EncInv EncChannel.init ∧ EncChannel.init.st = .idle := ⟨encInv_init, rfl⟩
theorem witness_DstatFields :
    (DecInv DecChannel.init ∧ DecChannel.init.st = .idle) ∧ (DecInv decErr.block.dec ∧ decErr.block.dec.st = .err) ∧
    (DecInv (decAt false [] CodeTable.initial).block.dec ∧ (decAt false [] CodeTable.initial).block.dec.st = .run ∧
      (decAt false [] CodeTable.initial).block.dec.pv = false) :=
  ⟨⟨decInv_init, rfl⟩, ⟨decInv_err, rfl⟩, ⟨decInv_begun, rfl, rfl⟩⟩
theorem witness_StepAnswersAndKeepsTheInvariants :
    State.Inv { block := { enc := (encAt [97#8, 98#8] { assigned := [[97#8, 98#8]] }).block.enc
                           dec := (decAt true [240#8] fullTable).block.dec }
                host := { inputs := [.command 0x12000100#32, .reset], responses := [] } } :=
  ⟨encInv_busy, decInv_full⟩
theorem witness_IdleAndErrAreCanonical :
    (∃ t, issue State.reset [.command 0x01000000#32, .command 0x03000000#32] = .next t ∧ t.block.enc.st = .idle) ∧
    (∃ t, issue State.reset [.command 0x11000000#32, .command 0x12000100#32] = .next t ∧ t.block.dec.st = .err) :=
  ⟨⟨_, rfl, rfl⟩, ⟨_, rfl, rfl⟩⟩
theorem witness_TablesKeepTheirInvariants : ∃ t, issue State.reset [.command 0x11000000#32] = .next t := ⟨_, rfl⟩
theorem witness_EntriesAreNeverChangedOneByOne :
    ∃ t, step ((encAt [116#8] CodeTable.initial).presentNext 0x02000061#32) = .next t :=
  ⟨(encAt [97#8] { assigned := [[116#8, 97#8]] }).respond { status := .ok, out := [.code 116#16] }, rfl⟩
theorem witness_EncoderPrefixIsBounded : EncInv (encAt [97#8, 98#8] { assigned := [[97#8, 98#8]] }).block.enc := encInv_busy
theorem witness_CommandsReachTheirOwnChannelOnly :
    ∃ t, exec (.stcPack 65535#16) decErr = .next t ∧ (Instr.stcPack 65535#16).piece ≠ .enc ∧
      (Instr.stcPack 65535#16).piece ≠ .dec := ⟨_, rfl, by decide, by decide⟩
theorem witness_ResponsesHaveTheirCommandsShape :
    State.Inv (decAt true [97#8] CodeTable.initial) ∧
    ∃ t, exec (.decCode 256#16) (decAt true [97#8] CodeTable.initial) = .next t :=
  ⟨⟨encInv_init, decInv_busy⟩,
   (decAt true [97#8, 97#8] { assigned := [[97#8, 97#8]] }).respond { status := .ok, out := [.symbol 97#8, .symbol 97#8] }, rfl⟩
theorem witness_ControlStatesFollowTheTables :
    (∃ t, step (decErr.present [.reset]) = .next t) ∧ (∃ t, exec .decEnd decErr = .next t) ∧
    (∃ t, exec .encEnd State.reset = .next t) ∧ (∃ t, exec (.decCode 65535#16) State.reset = .next t) :=
  ⟨⟨_, rfl⟩, ⟨_, rfl⟩, ⟨_, rfl⟩, ⟨_, rfl⟩⟩
theorem witness_ChannelsDoNotInterfere :
    ∃ t, issue decErr [.command 0x01000000#32, .command 0x12000061#32, .reset, .command 0x00000000#32] = .next t := ⟨_, rfl⟩
theorem witness_DecoderMirrorsTheEncoder :
    ([97#8] : SymSeq) ≠ [] ∧ (∃ t, issue State.reset (commandEvents (feedEncoder [97#8])) = .next t) ∧
    compress [97#8] = .value [97#16] :=
  ⟨by decide, ⟨_, rfl⟩, by decide⟩
theorem witness_CodeCountIsSymbolsLessHits : ([97#8] : SymSeq) ≠ [] := by decide
theorem witness_NoRepeatedPairCompressesToItself :
    (List.replicate 65281 97#8 : SymSeq).length ≤ 65281 ∧ (adjacentPairs [97#8, 98#8]).Nodup :=
  ⟨by rw [List.length_replicate], by decide⟩
theorem witness_SourceVectorsMatchExactly :
    ([104#8, 101#8, 108#8, 108#8, 111#8] : SymSeq).length ≤ 65281 ∧
    (adjacentPairs [104#8, 101#8, 108#8, 108#8, 111#8]).Nodup := by decide
theorem witness_CutStreamDecodesToAPrefix : decompress ([97#16] ++ [98#16]) = .value [97#8, 98#8] := by decide
theorem witness_AssemblerRefusesWhatDoesNotFit :
    SourceCommand.toInstr ⟨.encSym, some 255⟩ = some (.encSym 255#8) ∧
    SourceCommand.toInstr ⟨.rdStat, some 1⟩ = some (.rdStat .dstat) := by decide

end Sys2Proof.Tests
end

section
/-! PROOF. `E.p` has at most 65281 symbols (00_scope.md R7): its prefixes of length 2 and up are pairwise
different entries of a table with room for 65280. -/

namespace Sys2Proof.Machine

/-- A populated sequence of length 2 or more is no seed, so it is one of the assigned entries. -/
theorem mem_assigned_of_ctGet {T : CodeTable} {k : Nat} {q : SymSeq} (h : ctGet T k = some q) (hq : 2 ≤ q.length) :
    q ∈ T.assigned := by
  rcases Nat.lt_or_ge k 256 with hk | hk
  · rw [ctGet_seed T hk, Option.some.injEq] at h
    simp [← h] at hq
  · rw [ctGet_of_le T hk] at h
    exact List.mem_of_getElem? h

/-- A list that holds all prefixes of `p` of length 2 or more has at least `p.length - 1` elements. -/
theorem length_le_of_take_mem {p : SymSeq} {l : List SymSeq} (h : ∀ n, 2 ≤ n → n ≤ p.length → p.take n ∈ l) :
    p.length ≤ l.length + 1 := by
  have hmaps : Set.MapsTo p.take (Finset.Icc 2 p.length) l.toFinset := fun n hn => by
    obtain ⟨h2, hp⟩ := Finset.mem_Icc.1 hn
    exact List.mem_toFinset.2 (h n h2 hp)
  have hinj : Set.InjOn p.take (Finset.Icc 2 p.length) := fun m hm n hn hmn => by
    have hlen := congrArg List.length hmn
    simp only [Finset.coe_Icc, Set.mem_Icc] at hm hn
    rwa [List.length_take_of_le hm.2, List.length_take_of_le hn.2] at hlen
  have hcard : p.length + 1 - 2 ≤ l.length :=
    calc p.length + 1 - 2 = (Finset.Icc 2 p.length).card := (Nat.card_Icc 2 p.length).symm
      _ ≤ l.toFinset.card := Finset.card_le_card_of_injOn p.take hmaps hinj
      _ ≤ l.length := l.toFinset_card_le
  omega

/-- The encoder has inserted all prefixes of `E.p` of length 2 or more. -/
theorem EncInv.take_mem_assigned {e : EncChannel} (he : EncInv e) {n : Nat} (h2 : 2 ≤ n) (hn : n ≤ e.p.length) :
    e.p.take n ∈ e.ct.assigned := by
  obtain ⟨k, hk⟩ := (ctFind_isSome_iff e.ct _).1 (he.prefixes n (by omega) hn)
  exact mem_assigned_of_ctGet hk (by rwa [List.length_take_of_le hn])

/-- Settles O39: distinct prefixes of `E.p` are distinct entries, and the table has room for 65280 entries. -/
theorem encoderPrefixIsBounded : Obligations.EncoderPrefixIsBounded := fun e he =>
  calc e.p.length ≤ e.ct.assigned.length + 1 := length_le_of_take_mem fun _ => he.take_mem_assigned
    _ ≤ 65281 := Nat.succ_le_succ e.ct.bound

end Sys2Proof.Machine
end

section
/-! PROOF. What one step and a whole run do, said once (20_memory.md R38, R39; 30_encoding.md R45): an equation of `step`
per kind of event, and the induction over the events of a run. -/

namespace Sys2Proof.Machine

/-- The machine with the events still to come replaced, as after the head of the stream was taken (R39). -/
def State.withInputs (s : State) (rest : List HostEvent) : State := { s with host := { s.host with inputs := rest } }

@[simp] theorem State.withInputs_block (s : State) (rest : List HostEvent) : (s.withInputs rest).block = s.block := rfl
@[simp] theorem State.withInputs_inputs (s : State) (rest : List HostEvent) :
    (s.withInputs rest).host.inputs = rest := rfl
@[simp] theorem State.withInputs_responses (s : State) (rest : List HostEvent) :
    (s.withInputs rest).host.responses = s.host.responses := rfl

theorem step_of_no_event {s : State} (h : s.host.inputs = []) : step s = .next s := by
  simp [step, takeEvent_nil h, waitForHost]

theorem step_of_reset {s : State} {rest : List HostEvent} (h : s.host.inputs = .reset :: rest) :
    step s = .next { s.withInputs rest with block := Block.init } := by
  simp [step, takeEvent_cons h, takeReset, State.withInputs]

theorem step_of_command {s : State} {w : CommandWord} {i : Instr} {rest : List HostEvent}
    (h : s.host.inputs = .command w :: rest) (hw : decode w = .ok i) : step s = exec i (s.withInputs rest) := by
  simp [step, takeEvent_cons h, hw, State.withInputs]

theorem step_of_illegal {s : State} {w : CommandWord} {x : IllegalWord} {rest : List HostEvent}
    (h : s.host.inputs = .command w :: rest) (hw : decode w = .error x) :
    step s = .next ((s.withInputs rest).respond (reject .errIllegal)) := by
  simp [step, takeEvent_cons h, hw, rejectIllegal, State.withInputs]

/-- What every answered step keeps, every run that goes through keeps. -/
theorem run_keeps {P : State → Prop} (hstep : ∀ s t, step s = .next t → P s → P t) :
    ∀ (n : Nat) (s t : State), run n s = .next t → P s → P t := by
  intro n
  induction n with
  | zero =>
    intro s t h hs
    cases h
    exact hs
  | succ n ih =>
    intro s t h hs
    rcases hst : step s with u | x | x <;> simp only [run, hst] at h
    · exact ih u t h (hstep s u hst hs)
    · cases h
    · cases h

end Sys2Proof.Machine
end

section
/-! PROOF. The encoder's commands keep `EncInv` (10_state.md R19, R27; 41_code_table.md R66; 42_encoder.md R73): a missed
sequence is new to the table and one symbol longer than the `E.p` the table holds. -/

namespace Sys2Proof.Machine

/-- The table reset of CT.INSERT keeps the assigned entries or drops them all. -/
theorem ctMakeRoom_sublist (T : CodeTable) : (ctMakeRoom T).assigned.Sublist T.assigned := by
  rcases ctMakeRoom_cases T with ⟨_, h⟩ | ⟨_, h⟩ <;> simp [h]

/-- The insertion of a new sequence keeps the assigned entries distinct (R66). -/
theorem nodup_ctInsert {T : CodeTable} {q : SymSeq} (hT : T.assigned.Nodup) (hq : q ∉ T.assigned) :
    (ctInsert T q).2.assigned.Nodup := by
  rw [ctInsert_assigned, ← List.concat_eq_append]
  exact (hT.sublist (ctMakeRoom_sublist T)).concat fun h => hq ((ctMakeRoom_sublist T).subset h)

/-- An assigned entry is found by CT.FIND. -/
theorem ctFind_isSome_of_mem {T : CodeTable} {q : SymSeq} (h : q ∈ T.assigned) : (ctFind T q).isSome = true := by
  obtain ⟨j, hj⟩ := List.mem_iff_getElem?.1 h
  exact (ctFind_isSome_iff T q).2 ⟨256 + j, by rw [ctGet_assigned, hj]⟩

/-- A sequence of one symbol is a seed of every table (R18). -/
theorem ctFind_singleton_isSome (T : CodeTable) (c : Symbol) : (ctFind T [c]).isSome = true :=
  (ctFind_isSome_iff T [c]).2 ⟨c.toNat, by rw [ctGet_seed T c.isLt, BitVec.ofNat_toNat, BitVec.setWidth_eq]⟩

/-- What is found in a table whose assigned entries have length 2 or more is not empty. -/
theorem ne_nil_of_ctFind {T : CodeTable} (hT : T.wf = true) {q : SymSeq} {k : Nat} (h : ctFind T q = some k) : q ≠ [] :=
  ctGet_ne_nil hT ((ctFind_eq_some_iff T q k).1 h).1

/-- An empty `E.p` with the initial table has the invariants, in either control state. -/
theorem encInv_empty (st : EncSt) : EncInv { st := st, p := [], ct := CodeTable.initial } where
  entries := wf_initial
  entryBound := by simp
  distinct := by simp
  idle := by rintro rfl; rfl
  prefixes := by
    intro n h0 hn
    exact absurd hn (Nat.not_le.2 h0)

/-- `E.p` extended by a hit is again in the table at every non-zero length (R73). -/
theorem EncInv.hit {e : EncChannel} (he : EncInv e) (hst : e.st = .run) {c : Symbol}
    (hit : (ctFind e.ct (e.p ++ [c])).isSome = true) : EncInv { e with p := e.p ++ [c] } where
  entries := he.entries
  entryBound := he.entryBound
  distinct := he.distinct
  idle := by simp [hst]
  prefixes := by
    intro n h0 hn
    rcases Nat.lt_or_ge e.p.length n with hlong | hshort
    · rwa [List.take_of_length_le (by simp; omega)]
    · rw [List.take_append_of_le_length hshort]
      exact he.prefixes n h0 hshort

/-- After a miss the table has one new entry, within the bounds of R7 and R19 (c), and `E.p` is a seed. -/
theorem EncInv.miss {e : EncChannel} (he : EncInv e) (hst : e.st = .run) {c : Symbol} {k : Nat}
    (miss : ctFind e.ct (e.p ++ [c]) = none) (hp : ctFind e.ct e.p = some k) :
    EncInv { e with ct := (ctInsert e.ct (e.p ++ [c])).2, p := [c] } where
  entries := by
    have := List.length_pos_iff.2 (ne_nil_of_ctFind he.entries hp)
    exact wf_ctInsert he.entries (by simp; omega)
  entryBound := by
    intro q hq
    rw [ctInsert_assigned, List.mem_append, List.mem_singleton] at hq
    rcases hq with hq | rfl
    · exact he.entryBound q ((ctMakeRoom_sublist _).subset hq)
    · have := encoderPrefixIsBounded e he
      simp
      omega
  distinct := nodup_ctInsert he.distinct fun h => by simpa [miss] using ctFind_isSome_of_mem h
  idle := by simp [hst]
  prefixes := by
    intro n h0 hn
    obtain rfl : n = 1 := Nat.le_antisymm hn h0
    exact ctFind_singleton_isSome _ c

theorem encInv_of_encStart {e e' : EncChannel} {r : Response} (h : encStart e = .ok (e', r)) : EncInv e' := by
  cases h
  exact encInv_empty .run

theorem encSym_keeps_inv {c : Symbol} {e e' : EncChannel} {r : Response} (h : encSym c e = .ok (e', r))
    (he : EncInv e) : EncInv e' := by
  rcases encSym_cases h with ⟨_, rfl, _⟩ | ⟨hst, hit, rfl, _⟩ | ⟨k, hst, miss, hp, rfl, _⟩
  · exact he
  · exact he.hit hst hit
  · exact he.miss hst miss hp

theorem encEnd_keeps_inv {e e' : EncChannel} {r : Response} (h : encEnd e = .ok (e', r)) (he : EncInv e) :
    EncInv e' := by
  rcases encEnd_cases h with ⟨_, rfl, _⟩ | ⟨_, _, rfl, _⟩ | ⟨_, _, _, _, rfl, _⟩
  · exact he
  · exact encInv_empty .idle
  · exact encInv_empty .idle

end Sys2Proof.Machine
end

section
/-! PROOF. The decoder's commands keep `DecInv` (10_state.md R16, R19, R27): an entry put out is not empty, so the sequence
the next code inserts has length 2 or more. -/

namespace Sys2Proof.Machine

/-- What step (c) of DEC.CODE can do: nothing without a `previous`, else the insertion of `D.prev ++ [entry[0]]` (R81). -/
theorem decGrow_cases {T U : CodeTable} {pv : Bool} {prev entry : SymSeq} (h : decGrow T pv prev entry = .ok U) :
    (pv = false ∧ U = T) ∨
    (∃ c rest, pv = true ∧ entry = c :: rest ∧ U = (ctInsert T (prev ++ [c])).2) := by
  unfold decGrow at h
  cases pv with
  | false =>
    cases h
    exact .inl ⟨rfl, rfl⟩
  | true =>
    cases entry with
    | nil => cases h
    | cons c rest =>
      cases h
      exact .inr ⟨c, rest, rfl, rfl, rfl⟩

theorem wf_decMakeRoom {d : DecChannel} (h : d.ct.wf = true) : (decMakeRoom d).wf = true := by
  rw [decMakeRoom_eq]
  split
  · exact wf_ctMakeRoom h
  · exact h

/-- A resolved entry is not empty: it is an entry of the table or a longer `D.prev` (R19 (c), R81). -/
theorem decResolve_ne_nil {T : CodeTable} {pv : Bool} {prev entry : SymSeq} {k : Code} (hT : T.wf = true)
    (h : decResolve T pv prev k = .ok (some entry)) : entry ≠ [] := by
  rcases decResolve_cases h with ⟨_, hget, _⟩ | ⟨c, _, _, _, _, hself⟩ | ⟨_, hnone⟩
  · exact ctGet_ne_nil hT hget.symm
  · cases hself
    simp
  · cases hnone

/-- Without a `previous` and with the initial table the invariants hold, in every control state. -/
theorem decInv_empty (st : DecSt) : DecInv { st := st, pv := false, prev := [], ct := CodeTable.initial } where
  entries := wf_initial
  resting := fun _ => rfl
  absent := fun _ => ⟨rfl, rfl⟩
  present := by simp

/-- After an output the entry is a non-empty `previous`, and what was inserted has length 2 or more. -/
theorem DecInv.output {d : DecChannel} (hd : DecInv d) (hst : d.st = .run) {k : Code} {entry : SymSeq} {T : CodeTable}
    (hres : decResolve (decMakeRoom d) d.pv d.prev k = .ok (some entry))
    (hgrow : decGrow (decMakeRoom d) d.pv d.prev entry = .ok T) :
    DecInv { d with pv := true, prev := entry, ct := T } where
  entries := by
    have hroom := wf_decMakeRoom hd.entries
    rcases decGrow_cases hgrow with ⟨_, rfl⟩ | ⟨c, _, hpv, _, rfl⟩
    · exact hroom
    · have := List.length_pos_iff.2 (hd.present hpv)
      exact wf_ctInsert hroom (by simp; omega)
  resting := by simp [hst]
  absent := by simp
  present := fun _ => decResolve_ne_nil (wf_decMakeRoom hd.entries) hres

theorem decInv_of_decStart {d d' : DecChannel} {r : Response} (h : decStart d = .ok (d', r)) : DecInv d' := by
  cases h
  exact decInv_empty .run

theorem decCode_keeps_inv {k : Code} {d d' : DecChannel} {r : Response} (h : decCode k d = .ok (d', r))
    (hd : DecInv d) : DecInv d' := by
  rcases decCode_cases h with ⟨_, rfl, _⟩ | ⟨_, rfl, _⟩ | ⟨_, _, rfl, _⟩ | ⟨_, _, hst, hres, hgrow, rfl, _⟩
  · exact hd
  · exact hd
  · exact decInv_empty .err
  · exact hd.output hst hres hgrow

/-- What DEC.END can do: reject, echo, or end the call (R82). -/
theorem decEnd_cases {d d' : DecChannel} {r : Response} (h : decEnd d = .ok (d', r)) :
    (d.st = .idle ∧ d' = d ∧ r = reject .errSeq) ∨
    (d.st = .err ∧ d' = d ∧ r = reject .errDecode) ∨
    (d.st = .run ∧ d' = DecChannel.init ∧ r = accept []) := by
  unfold decEnd at h
  rcases hst : d.st with _ | _ | _ <;> rw [hst] at h <;> cases h
  · exact .inl ⟨rfl, rfl, rfl⟩
  · exact .inr (.inr ⟨rfl, rfl, rfl⟩)
  · exact .inr (.inl ⟨rfl, rfl, rfl⟩)

theorem decEnd_keeps_inv {d d' : DecChannel} {r : Response} (h : decEnd d = .ok (d', r)) (hd : DecInv d) :
    DecInv d' := by
  rcases decEnd_cases h with ⟨_, rfl, _⟩ | ⟨_, rfl, _⟩ | ⟨_, rfl, _⟩
  · exact hd
  · exact hd
  · exact decInv_empty .idle

end Sys2Proof.Machine
end

section
/-! PROOF. The invariants hold at reset and on every run from reset, and what R19, R27 and R66 say of IDLE, of ERR and of the
two tables follows from them. -/

namespace Sys2Proof.Machine

/-- Settles O33: the reset state is the empty encoder and the empty decoder, both in IDLE. -/
theorem invariantsHoldAtReset : Obligations.InvariantsHoldAtReset := ⟨encInv_empty .idle, decInv_empty .idle⟩

theorem onEnc_keeps_inv {f : EncChannel → Answer EncChannel}
    (hf : ∀ {e e' r}, f e = .ok (e', r) → EncInv e → EncInv e') {s t : State} (h : onEnc f s = .next t) (hs : s.Inv) :
    t.Inv := by
  obtain ⟨e, r, he, rfl⟩ := (onEnc_next_iff f s t).1 h
  exact ⟨hf he hs.enc, hs.dec⟩

theorem onDec_keeps_inv {f : DecChannel → Answer DecChannel}
    (hf : ∀ {d d' r}, f d = .ok (d', r) → DecInv d → DecInv d') {s t : State} (h : onDec f s = .next t) (hs : s.Inv) :
    t.Inv := by
  obtain ⟨d, r, hd, rfl⟩ := (onDec_next_iff f s t).1 h
  exact ⟨hs.enc, hf hd hs.dec⟩

/-- A command that only answers leaves the block as it was (R92, R100). -/
theorem answerOnly_next_iff (s t : State) (r : Response) : answerOnly s r = .next t ↔ t = s.respond r := by
  simp [eq_comm]

/-- The invariants are about the block alone. -/
theorem State.Inv.of_block_eq {s t : State} (hs : s.Inv) (h : t.block = s.block) : t.Inv :=
  ⟨h ▸ hs.enc, h ▸ hs.dec⟩

theorem answerOnly_keeps_inv {r : Response} {s t : State} (h : answerOnly s r = .next t) (hs : s.Inv) : t.Inv := by
  rw [(answerOnly_next_iff s t r).1 h]
  exact hs.of_block_eq rfl

theorem exec_keeps_inv {i : Instr} {s t : State} (h : exec i s = .next t) (hs : s.Inv) : t.Inv := by
  cases i with
  | encStart => exact onEnc_keeps_inv (f := encStart) (fun he _ => encInv_of_encStart he) h hs
  | encSym c => exact onEnc_keeps_inv encSym_keeps_inv h hs
  | encEnd => exact onEnc_keeps_inv encEnd_keeps_inv h hs
  | decStart => exact onDec_keeps_inv (f := decStart) (fun hd _ => decInv_of_decStart hd) h hs
  | decCode k => exact onDec_keeps_inv decCode_keeps_inv h hs
  | decEnd => exact onDec_keeps_inv decEnd_keeps_inv h hs
  | stcPack k => exact answerOnly_keeps_inv h hs
  | stcUnpack u => exact answerOnly_keeps_inv h hs
  | rdStat sel => exact answerOnly_keeps_inv h hs

/-- Every answered step keeps the invariants, whatever the host presents. -/
theorem step_keeps_inv {s t : State} (h : step s = .next t) (hs : s.Inv) : t.Inv := by
  rcases hin : s.host.inputs with _ | ⟨_ | w, rest⟩
  · rw [step_of_no_event hin] at h
    cases h
    exact hs
  · rw [step_of_reset hin] at h
    cases h
    exact invariantsHoldAtReset.of_block_eq rfl
  · rcases hw : decode w with x | i
    · rw [step_of_illegal hin hw] at h
      cases h
      exact hs.of_block_eq rfl
    · rw [step_of_command hin hw] at h
      exact exec_keeps_inv h (hs.of_block_eq rfl)

/-- The invariants hold at the end of every run from reset. -/
theorem inv_of_issue_reset {events : List HostEvent} {t : State} (h : issue State.reset events = .next t) : t.Inv :=
  run_keeps (fun _ _ => step_keeps_inv) _ _ _ h (invariantsHoldAtReset.of_block_eq rfl)

/-- R27 for the encoder. -/
theorem EncInv.canonical_of_idle {e : EncChannel} (he : EncInv e) (h : e.st = .idle) :
    e.p = [] ∧ e.ct = CodeTable.initial := by
  rw [he.idle h]
  exact ⟨rfl, rfl⟩

/-- R27 for the decoder. -/
theorem DecInv.canonical_of_resting {d : DecChannel} (hd : DecInv d) (h : d.st ≠ .run) :
    d.pv = false ∧ d.prev = [] ∧ d.ct = CodeTable.initial :=
  ⟨hd.resting h, hd.absent (hd.resting h)⟩

/-- Settles O36: the invariants hold on every run, and at rest they leave one data state. -/
theorem idleAndErrAreCanonical : Obligations.IdleAndErrAreCanonical := by
  intro events t h
  obtain ⟨henc, hdec⟩ := inv_of_issue_reset h
  refine ⟨henc.canonical_of_idle, fun hst => hdec.canonical_of_resting ?_⟩
  rcases hst with hst | hst <;> simp [hst]

/-- R19 (c) read through CT.GET. -/
theorem length_of_ctGet {T : CodeTable} (hT : T.wf = true) {k : Nat} {q : SymSeq} (hk : 256 ≤ k)
    (h : ctGet T k = some q) : 2 ≤ q.length := by
  rw [ctGet_of_le T hk] at h
  simp only [CodeTable.wf, List.all_eq_true, decide_eq_true_eq] at hT
  exact hT q (List.mem_of_getElem? h)

/-- A seed has one symbol and an assigned entry two or more, so they are never the same sequence. -/
theorem ctGet_seed_ne_assigned {T : CodeTable} (hT : T.wf = true) {j k : Nat} {q : SymSeq} (hj : j < 256)
    (hjq : ctGet T j = some q) (hk : 256 ≤ k) : ctGet T k ≠ some q := by
  intro hkq
  have := length_of_ctGet hT hk hkq
  rw [ctGet_seed T hj, Option.some.injEq] at hjq
  simp [← hjq] at this

/-- Where the assigned entries are distinct, no sequence is read at two indexes (R66). -/
theorem ctGet_injective {T : CodeTable} (hT : T.wf = true) (hd : T.assigned.Nodup) {j k : Nat} {q : SymSeq}
    (hj : ctGet T j = some q) (hk : ctGet T k = some q) : j = k := by
  rcases Nat.lt_or_ge j 256 with hj' | hj' <;> rcases Nat.lt_or_ge k 256 with hk' | hk'
  · rw [ctGet_seed T hj'] at hj
    rw [ctGet_seed T hk', ← hj] at hk
    have := congrArg BitVec.toNat (List.singleton_inj.1 (Option.some.inj hk))
    simp only [BitVec.toNat_ofNat] at this
    omega
  · exact absurd hk (ctGet_seed_ne_assigned hT hj' hj hk')
  · exact absurd hj (ctGet_seed_ne_assigned hT hk' hk hj')
  · rw [ctGet_of_le T hj'] at hj
    rw [ctGet_of_le T hk'] at hk
    have := (List.getElem?_inj (List.getElem?_eq_some_iff.1 hj).1 hd).1 (hj.trans hk.symm)
    omega

/-- Settles O37: the range and the seeds are those of every table; the rest is the invariants of the run. -/
theorem tablesKeepTheirInvariants : Obligations.TablesKeepTheirInvariants := by
  intro events t h T hT
  obtain ⟨henc, hdec⟩ := inv_of_issue_reset h
  have hwf : T.wf = true := by
    rcases hT with rfl | rfl
    · exact henc.entries
    · exact hdec.entries
  refine ⟨T.le_next, T.next_le, fun k hk => ctGet_seed T (Nat.lt_succ_of_le hk), fun k q => length_of_ctGet hwf, ?_⟩
  rintro rfl j k q hj hk
  exact ctGet_injective hwf henc.distinct hj hk

end Sys2Proof.Machine
end

section
/-! PROOF. The control states move as R22 and R23 say: a command of another piece leaves a channel alone, a command out of
sequence is rejected as a whole, and in RUN each command goes where its row of the table says. -/

namespace Sys2Proof.Machine

/-! ## Only a channel's own commands reach it (R31) -/

theorem onEnc_keeps_dec {f : EncChannel → Answer EncChannel} {s t : State} (h : onEnc f s = .next t) :
    t.block.dec = s.block.dec := by
  obtain ⟨e, r, _, rfl⟩ := (onEnc_next_iff f s t).1 h
  rfl

theorem onDec_keeps_enc {f : DecChannel → Answer DecChannel} {s t : State} (h : onDec f s = .next t) :
    t.block.enc = s.block.enc := by
  obtain ⟨d, r, _, rfl⟩ := (onDec_next_iff f s t).1 h
  rfl

theorem answerOnly_keeps_block {r : Response} {s t : State} (h : answerOnly s r = .next t) : t.block = s.block := by
  rw [(answerOnly_next_iff s t r).1 h]
  rfl

theorem Instr.piece_eq_enc_iff (i : Instr) : i.piece = .enc ↔ i = .encStart ∨ i = .encEnd ∨ ∃ c, i = .encSym c := by
  cases i <;> simp [Instr.piece, Instr.mnemonic, Mnemonic.piece]

theorem Instr.piece_eq_dec_iff (i : Instr) : i.piece = .dec ↔ i = .decStart ∨ i = .decEnd ∨ ∃ k, i = .decCode k := by
  cases i <;> simp [Instr.piece, Instr.mnemonic, Mnemonic.piece]

theorem exec_keeps_enc {i : Instr} {s t : State} (hi : i.piece ≠ .enc) (h : exec i s = .next t) :
    t.block.enc = s.block.enc := by
  cases i with
  | encStart | encSym | encEnd => exact absurd rfl hi
  | decStart => exact onDec_keeps_enc (f := decStart) h
  | decCode k => exact onDec_keeps_enc (f := decCode k) h
  | decEnd => exact onDec_keeps_enc (f := decEnd) h
  | stcPack | stcUnpack | rdStat => exact congrArg Block.enc (answerOnly_keeps_block h)

theorem exec_keeps_dec {i : Instr} {s t : State} (hi : i.piece ≠ .dec) (h : exec i s = .next t) :
    t.block.dec = s.block.dec := by
  cases i with
  | encStart => exact onEnc_keeps_dec (f := encStart) h
  | encSym c => exact onEnc_keeps_dec (f := encSym c) h
  | encEnd => exact onEnc_keeps_dec (f := encEnd) h
  | decStart | decCode | decEnd => exact absurd rfl hi
  | stcPack | stcUnpack | rdStat => exact congrArg Block.dec (answerOnly_keeps_block h)

/-! ## Out of sequence: the whole next state (R122, R127) -/

theorem onEnc_of_unchanged {f : EncChannel → Answer EncChannel} {s : State} {r : Response}
    (h : f s.block.enc = .ok (s.block.enc, r)) : onEnc f s = .next (s.respond r) :=
  (onEnc_next_iff f s _).2 ⟨_, _, h, rfl⟩

theorem onDec_of_unchanged {f : DecChannel → Answer DecChannel} {s : State} {r : Response}
    (h : f s.block.dec = .ok (s.block.dec, r)) : onDec f s = .next (s.respond r) :=
  (onDec_next_iff f s _).2 ⟨_, _, h, rfl⟩

/-- ENC.SYM and ENC.END in IDLE answer ERR_SEQ and change nothing. -/
theorem exec_of_enc_idle {i : Instr} {s : State} (hst : s.block.enc.st = .idle)
    (hi : i = .encEnd ∨ ∃ c, i = .encSym c) :
    exec i s = .next (s.respond (reject .errSeq)) := by
  rcases hi with rfl | ⟨c, rfl⟩
  · exact onEnc_of_unchanged (by simp [encEnd, hst])
  · exact onEnc_of_unchanged (by simp [encSym, hst])

/-- DEC.CODE and DEC.END in IDLE answer ERR_SEQ and change nothing. -/
theorem exec_of_dec_idle {i : Instr} {s : State} (hst : s.block.dec.st = .idle)
    (hi : i = .decEnd ∨ ∃ k, i = .decCode k) :
    exec i s = .next (s.respond (reject .errSeq)) := by
  rcases hi with rfl | ⟨k, rfl⟩
  · exact onDec_of_unchanged (by simp [decEnd, hst])
  · exact onDec_of_unchanged (by simp [decCode, hst])

/-- DEC.CODE and DEC.END in ERR echo ERR_DECODE and change nothing. -/
theorem exec_of_dec_err {i : Instr} {s : State} (hst : s.block.dec.st = .err)
    (hi : i = .decEnd ∨ ∃ k, i = .decCode k) :
    exec i s = .next (s.respond (reject .errDecode)) := by
  rcases hi with rfl | ⟨k, rfl⟩
  · exact onDec_of_unchanged (by simp [decEnd, hst])
  · exact onDec_of_unchanged (by simp [decCode, hst])

/-- Outside a call only ENC.START changes anything of the encoder channel. -/
theorem exec_keeps_enc_of_idle {i : Instr} {s t : State} (h : exec i s = .next t) (hst : s.block.enc.st = .idle)
    (hi : i ≠ .encStart) : t.block.enc = s.block.enc := by
  by_cases hp : i.piece = .enc
  · have hown := ((Instr.piece_eq_enc_iff i).1 hp).resolve_left hi
    cases (exec_of_enc_idle hst hown).symm.trans h
    rfl
  · exact exec_keeps_enc hp h

/-- Outside RUN only DEC.START changes anything of the decoder channel. -/
theorem exec_keeps_dec_of_not_run {i : Instr} {s t : State} (h : exec i s = .next t) (hst : s.block.dec.st ≠ .run)
    (hi : i ≠ .decStart) : t.block.dec = s.block.dec := by
  by_cases hp : i.piece = .dec
  · have hown := ((Instr.piece_eq_dec_iff i).1 hp).resolve_left hi
    rcases hd : s.block.dec.st with _ | _ | _
    · cases (exec_of_dec_idle hd hown).symm.trans h
      rfl
    · exact absurd hd hst
    · cases (exec_of_dec_err hd hown).symm.trans h
      rfl
  · exact exec_keeps_dec hp h

/-! ## The next control state of each command -/

/-- The table of R22: the next `E.st`. -/
def nextEncSt : Instr → EncSt → EncSt
  | .encStart, _ => .run
  | .encEnd, _ => .idle
  | _, st => st

/-- The table of R23: the next `D.st`, DEC.CODE in RUN told apart by the status it answers. -/
def nextDecSt : Instr → Status → DecSt → DecSt
  | .decStart, _, _ => .run
  | .decEnd, _, .run => .idle
  | .decCode _, status, .run => if status = .errDecode then .err else .run
  | _, _, st => st

theorem encSym_st {c : Symbol} {e e' : EncChannel} {r : Response} (h : encSym c e = .ok (e', r)) : e'.st = e.st := by
  rcases encSym_cases h with ⟨_, rfl, _⟩ | ⟨_, _, rfl, _⟩ | ⟨_, _, _, _, rfl, _⟩ <;> rfl

theorem encEnd_st {e e' : EncChannel} {r : Response} (h : encEnd e = .ok (e', r)) : e'.st = .idle := by
  rcases encEnd_cases h with ⟨hst, rfl, _⟩ | ⟨_, _, rfl, _⟩ | ⟨_, _, _, _, rfl, _⟩
  · exact hst
  · rfl
  · rfl

theorem decCode_st {k : Code} {d d' : DecChannel} {r : Response} (h : decCode k d = .ok (d', r)) :
    d'.st = nextDecSt (.decCode k) r.status d.st := by
  rcases decCode_cases h with ⟨hst, rfl, _⟩ | ⟨hst, rfl, _⟩ | ⟨hst, _, rfl, rfl⟩ | ⟨_, _, hst, _, _, rfl, rfl⟩ <;>
    simp [nextDecSt, hst]

theorem decEnd_st {d d' : DecChannel} {r : Response} (h : decEnd d = .ok (d', r)) :
    d'.st = nextDecSt .decEnd r.status d.st := by
  rcases decEnd_cases h with ⟨hst, rfl, _⟩ | ⟨hst, rfl, _⟩ | ⟨hst, rfl, _⟩ <;> simp [nextDecSt, hst]

theorem exec_enc_st {i : Instr} {s t : State} (h : exec i s = .next t) :
    t.block.enc.st = nextEncSt i s.block.enc.st := by
  cases i with
  | encStart =>
    obtain ⟨e, r, he, rfl⟩ := (onEnc_next_iff encStart s t).1 h
    cases he
    rfl
  | encSym c =>
    obtain ⟨e, r, he, rfl⟩ := (onEnc_next_iff (encSym c) s t).1 h
    exact encSym_st he
  | encEnd =>
    obtain ⟨e, r, he, rfl⟩ := (onEnc_next_iff encEnd s t).1 h
    exact encEnd_st he
  | decStart | decCode | decEnd | stcPack | stcUnpack | rdStat =>
    exact congrArg EncChannel.st (exec_keeps_enc (by simp [Instr.piece_eq_enc_iff]) h)

theorem exec_dec_st {i : Instr} {s t : State} {r : Response} (h : exec i s = .next t)
    (hr : t.host.responses = s.host.responses ++ [r]) : t.block.dec.st = nextDecSt i r.status s.block.dec.st := by
  cases i with
  | decStart =>
    obtain ⟨d, r', hd, rfl⟩ := (onDec_next_iff decStart s t).1 h
    cases hd
    rfl
  | decCode k =>
    obtain ⟨d, r', hd, rfl⟩ := (onDec_next_iff (decCode k) s t).1 h
    obtain rfl : r' = r := by simpa using hr
    exact decCode_st hd
  | decEnd =>
    obtain ⟨d, r', hd, rfl⟩ := (onDec_next_iff decEnd s t).1 h
    obtain rfl : r' = r := by simpa using hr
    exact decEnd_st hd
  | encStart | encSym | encEnd | stcPack | stcUnpack | rdStat =>
    exact congrArg DecChannel.st (exec_keeps_dec (by simp [Instr.piece_eq_dec_iff]) h)

/-- Where the whole next state of a command is known, so is the response it collected. -/
theorem response_of_exec {i : Instr} {s t : State} {r r' : Response} (h' : exec i s = .next (s.respond r'))
    (h : exec i s = .next t) (hr : t.host.responses = s.host.responses ++ [r]) : r = r' := by
  cases h'.symm.trans h
  simpa using hr.symm

/-- Settles O42: the two tables row by row, and outside RUN the rejections by their whole next state. -/
theorem controlStatesFollowTheTables : Obligations.ControlStatesFollowTheTables := by
  refine ⟨fun s t rest hin h => ?_, fun i s t h => ⟨?_, fun r hr => ⟨?_, fun hst hi => ?_, fun hst hi => ?_,
    fun hst hi => ?_⟩, exec_keeps_enc_of_idle h, exec_keeps_dec_of_not_run h⟩⟩
  · rw [step_of_reset hin] at h
    cases h
    exact ⟨rfl, rfl⟩
  · exact (exec_enc_st h).trans (by cases i <;> rfl)
  · exact (exec_dec_st h hr).trans (by cases i <;> cases s.block.dec.st <;> rfl)
  · rw [response_of_exec (exec_of_enc_idle hst hi) h hr, reject_status]
  · rw [response_of_exec (exec_of_dec_idle hst hi) h hr, reject_status]
  · rw [response_of_exec (exec_of_dec_err hst hi) h hr, reject_status]

end Sys2Proof.Machine
end

section
/-! PROOF. A command reaches its own channel only, lets only its inserting command grow the table, and leaves the host's
remaining events alone (20_memory.md R31; 41_code_table.md R67). -/

namespace Sys2Proof.Machine

/-- The host's side after one more response was delivered (R39, R45). -/
def HostSide.collect (h : HostSide) (r : Response) : HostSide := { h with responses := h.responses ++ [r] }

@[simp] theorem HostSide.collect_inputs (h : HostSide) (r : Response) : (h.collect r).inputs = h.inputs := rfl
@[simp] theorem HostSide.collect_responses (h : HostSide) (r : Response) :
    (h.collect r).responses = h.responses ++ [r] := rfl

theorem State.respond_host (s : State) (r : Response) : (s.respond r).host = s.host.collect r := rfl

theorem onEnc_host {f : EncChannel → Answer EncChannel} {s t : State} (h : onEnc f s = .next t) :
    ∃ r, t.host = s.host.collect r := by
  obtain ⟨e, r, _, rfl⟩ := (onEnc_next_iff f s t).1 h
  exact ⟨r, rfl⟩

theorem onDec_host {f : DecChannel → Answer DecChannel} {s t : State} (h : onDec f s = .next t) :
    ∃ r, t.host = s.host.collect r := by
  obtain ⟨d, r, _, rfl⟩ := (onDec_next_iff f s t).1 h
  exact ⟨r, rfl⟩

theorem answerOnly_host {r : Response} {s t : State} (h : answerOnly s r = .next t) : ∃ r', t.host = s.host.collect r' :=
  ⟨r, by rw [(answerOnly_next_iff s t r).1 h, State.respond_host]⟩

/-- All a command does on the host's side is to deliver one response (R50). -/
theorem exec_host {i : Instr} {s t : State} (h : exec i s = .next t) : ∃ r, t.host = s.host.collect r := by
  cases i with
  | encStart => exact onEnc_host (f := encStart) h
  | encSym c => exact onEnc_host (f := encSym c) h
  | encEnd => exact onEnc_host (f := encEnd) h
  | decStart => exact onDec_host (f := decStart) h
  | decCode k => exact onDec_host (f := decCode k) h
  | decEnd => exact onDec_host (f := decEnd) h
  | stcPack | stcUnpack | rdStat => exact answerOnly_host h

/-! ## Which commands can grow a table (R67) -/

theorem encStart_next_le {e e' : EncChannel} {r : Response} (h : encStart e = .ok (e', r)) : e'.ct.next ≤ e.ct.next := by
  cases h
  exact e.ct.le_next

theorem encEnd_next_le {e e' : EncChannel} {r : Response} (h : encEnd e = .ok (e', r)) : e'.ct.next ≤ e.ct.next := by
  rcases encEnd_cases h with ⟨_, rfl, _⟩ | ⟨_, _, rfl, _⟩ | ⟨_, _, _, _, rfl, _⟩
  · exact le_rfl
  · exact e.ct.le_next
  · exact e.ct.le_next

theorem decStart_next_le {d d' : DecChannel} {r : Response} (h : decStart d = .ok (d', r)) : d'.ct.next ≤ d.ct.next := by
  cases h
  exact d.ct.le_next

theorem decEnd_next_le {d d' : DecChannel} {r : Response} (h : decEnd d = .ok (d', r)) : d'.ct.next ≤ d.ct.next := by
  rcases decEnd_cases h with ⟨_, rfl, _⟩ | ⟨_, rfl, _⟩ | ⟨_, rfl, _⟩
  · exact le_rfl
  · exact le_rfl
  · exact d.ct.le_next

theorem encSym_of_enc_next_lt {i : Instr} {s t : State} (h : exec i s = .next t)
    (hlt : s.block.enc.ct.next < t.block.enc.ct.next) : ∃ c, i = .encSym c := by
  cases i with
  | encSym c => exact ⟨c, rfl⟩
  | encStart =>
    obtain ⟨e, r, he, rfl⟩ := (onEnc_next_iff encStart s t).1 h
    exact absurd hlt (Nat.not_lt.2 (encStart_next_le he))
  | encEnd =>
    obtain ⟨e, r, he, rfl⟩ := (onEnc_next_iff encEnd s t).1 h
    exact absurd hlt (Nat.not_lt.2 (encEnd_next_le he))
  | decStart | decCode | decEnd | stcPack | stcUnpack | rdStat =>
    rw [exec_keeps_enc (by simp [Instr.piece_eq_enc_iff]) h] at hlt
    exact absurd hlt (Nat.lt_irrefl _)

theorem decCode_of_dec_next_lt {i : Instr} {s t : State} (h : exec i s = .next t)
    (hlt : s.block.dec.ct.next < t.block.dec.ct.next) : ∃ k, i = .decCode k := by
  cases i with
  | decCode k => exact ⟨k, rfl⟩
  | decStart =>
    obtain ⟨d, r, hd, rfl⟩ := (onDec_next_iff decStart s t).1 h
    exact absurd hlt (Nat.not_lt.2 (decStart_next_le hd))
  | decEnd =>
    obtain ⟨d, r, hd, rfl⟩ := (onDec_next_iff decEnd s t).1 h
    exact absurd hlt (Nat.not_lt.2 (decEnd_next_le hd))
  | encStart | encSym | encEnd | stcPack | stcUnpack | rdStat =>
    rw [exec_keeps_dec (by simp [Instr.piece_eq_dec_iff]) h] at hlt
    exact absurd hlt (Nat.lt_irrefl _)

/-- Settles O40: each piece's frame, the one command of each channel that can grow its table, and the frame of the host. -/
theorem commandsReachTheirOwnChannelOnly : Obligations.CommandsReachTheirOwnChannelOnly := by
  intro i s t h
  obtain ⟨r, hhost⟩ := exec_host h
  exact ⟨fun hi => exec_keeps_enc hi h, fun hi => exec_keeps_dec hi h, encSym_of_enc_next_lt h, decCode_of_dec_next_lt h,
    by rw [hhost, HostSide.collect_inputs]⟩

end Sys2Proof.Machine
end

section
/-! PROOF. The channels do not interfere (20_memory.md R40). A channel and the piece of the block that owns it are treated
alike for both channels: an event that does not concern the piece leaves the channel as it was, and one that does has the
same effect on it and the same response from any two states that agree on the channel. A stream and the part of it that
concerns the piece are then run side by side. -/

namespace Sys2Proof.Machine

/-- `view` is what the piece `p` owns of the block: no other command changes it, and `p`'s own commands read nothing else of
the block to find its next value and their response. -/
structure Owns (p : Piece) {α : Type} (view : Block → α) : Prop where
  foreign : ∀ {i : Instr} {s t : State}, i.piece ≠ p → exec i s = .next t → view t.block = view s.block
  own : ∀ {i : Instr} {s t u : State}, i.piece = p → view u.block = view s.block → exec i s = .next t →
    ∃ v r, exec i u = .next v ∧ view v.block = view t.block ∧ t.host = s.host.collect r ∧ v.host = u.host.collect r

theorem onEnc_same_effect {f : EncChannel → Answer EncChannel} {s t u : State} (hu : u.block.enc = s.block.enc)
    (h : onEnc f s = .next t) :
    ∃ v r, onEnc f u = .next v ∧ v.block.enc = t.block.enc ∧ t.host = s.host.collect r ∧ v.host = u.host.collect r := by
  obtain ⟨e, r, he, rfl⟩ := (onEnc_next_iff f s t).1 h
  exact ⟨(u.setEnc e).respond r, r, (onEnc_next_iff f u _).2 ⟨e, r, hu ▸ he, rfl⟩, rfl, rfl, rfl⟩

theorem onDec_same_effect {f : DecChannel → Answer DecChannel} {s t u : State} (hu : u.block.dec = s.block.dec)
    (h : onDec f s = .next t) :
    ∃ v r, onDec f u = .next v ∧ v.block.dec = t.block.dec ∧ t.host = s.host.collect r ∧ v.host = u.host.collect r := by
  obtain ⟨d, r, hd, rfl⟩ := (onDec_next_iff f s t).1 h
  exact ⟨(u.setDec d).respond r, r, (onDec_next_iff f u _).2 ⟨d, r, hu ▸ hd, rfl⟩, rfl, rfl, rfl⟩

theorem owns_enc : Owns .enc Block.enc where
  foreign := exec_keeps_enc
  own := by
    intro i s t u hi hu h
    rcases (Instr.piece_eq_enc_iff i).1 hi with rfl | rfl | ⟨c, rfl⟩
    · exact onEnc_same_effect (f := encStart) hu h
    · exact onEnc_same_effect (f := encEnd) hu h
    · exact onEnc_same_effect (f := encSym c) hu h

theorem owns_dec : Owns .dec Block.dec where
  foreign := exec_keeps_dec
  own := by
    intro i s t u hi hu h
    rcases (Instr.piece_eq_dec_iff i).1 hi with rfl | rfl | ⟨k, rfl⟩
    · exact onDec_same_effect (f := decStart) hu h
    · exact onDec_same_effect (f := decEnd) hu h
    · exact onDec_same_effect (f := decCode k) hu h

/-! ## One event -/

theorem concerns_of_ok {p : Piece} {w : CommandWord} {i : Instr} (hw : decode w = .ok i) :
    concerns p (.command w) = true ↔ i.piece = p := by
  simp [concerns, hw]

theorem not_concerns_of_illegal {p : Piece} {w : CommandWord} {x : IllegalWord} (hw : decode w = .error x) :
    concerns p (.command w) = false := by
  simp [concerns, hw]

/-- From `s` to `t` the host's next event `e` was taken, `rest` stays, and the answer `o` was delivered: one response to a
command word, none to RESET (R45, R140). -/
structure Took (e : HostEvent) (rest : List HostEvent) (o : Option Response) (s t : State) : Prop where
  answered : o.isSome = isCommand e
  inputs : t.host.inputs = rest
  responses : t.host.responses = s.host.responses ++ o.toList

theorem took_of_collect {w : CommandWord} {rest : List HostEvent} {r : Response} {s t : State}
    (h : t.host = (s.withInputs rest).host.collect r) : Took (.command w) rest (some r) s t :=
  ⟨rfl, by simp [h], by simp [h]⟩

section
variable {p : Piece} {α : Type} {view : Block → α} {e : HostEvent} {rest rest' : List HostEvent} {s t u : State}

/-- An event that does not concern the piece leaves its channel as it was. -/
theorem Owns.step_of_not_concerns (hp : Owns p view) (he : ¬ concerns p e = true) (hs : s.host.inputs = e :: rest)
    (h : step s = .next t) : view t.block = view s.block ∧ ∃ o, Took e rest o s t := by
  rcases e with _ | w
  · exact absurd rfl he
  · rcases hw : decode w with x | i
    · rw [step_of_illegal hs hw] at h
      cases h
      exact ⟨rfl, _, took_of_collect rfl⟩
    · rw [step_of_command hs hw] at h
      obtain ⟨r, hr⟩ := exec_host h
      exact ⟨hp.foreign (s := s.withInputs rest) (fun hi => he ((concerns_of_ok hw).2 hi)) h, _, took_of_collect hr⟩

/-- An event that concerns the piece does the same to its channel, with the same answer, from any two states that agree on
the channel. -/
theorem Owns.step_of_concerns (hp : Owns p view) (he : concerns p e = true) (hs : s.host.inputs = e :: rest)
    (hu : u.host.inputs = e :: rest') (hview : view u.block = view s.block) (h : step s = .next t) :
    ∃ v o, step u = .next v ∧ view v.block = view t.block ∧ Took e rest o s t ∧ Took e rest' o u v := by
  rcases e with _ | w
  · rw [step_of_reset hs] at h
    cases h
    exact ⟨_, none, step_of_reset hu, rfl, ⟨rfl, rfl, by simp⟩, ⟨rfl, rfl, by simp⟩⟩
  · rcases hw : decode w with x | i
    · simp [not_concerns_of_illegal hw] at he
    · rw [step_of_command hs hw] at h
      obtain ⟨v, r, hv, hvt, ht, hr⟩ := hp.own (s := s.withInputs rest) (u := u.withInputs rest')
        ((concerns_of_ok hw).1 he) hview h
      exact ⟨v, some r, (step_of_command hu hw).trans hv, hvt, took_of_collect ht, took_of_collect hr⟩

end

/-! ## The whole stream -/

theorem run_succ_next_iff (n : Nat) (s t : State) :
    run (n + 1) s = .next t ↔ ∃ u, step s = .next u ∧ run n u = .next t := by
  rcases h : step s with u | x | x <;> simp [run, h]

@[simp] theorem responsesTo_nil (p : Piece) (rs : List Response) : responsesTo p [] rs = [] := rfl

@[simp] theorem isCommand_reset : isCommand .reset = false := rfl
@[simp] theorem isCommand_command (w : CommandWord) : isCommand (.command w) = true := rfl

/-- The answer to the first event is among the responses to a piece's commands exactly when the event concerns the piece. -/
theorem responsesTo_cons (p : Piece) {e : HostEvent} {o : Option Response} (ho : o.isSome = isCommand e)
    (events : List HostEvent) (rs : List Response) :
    responsesTo p (e :: events) (o.toList ++ rs) =
      if concerns p e = true then o.toList ++ responsesTo p events rs else responsesTo p events rs := by
  rcases e with _ | w <;> rcases o with _ | r <;> simp at ho
  · simp [responsesTo]
  · by_cases hc : concerns p (.command w) = true <;> simp [responsesTo, List.filter_cons, hc]

/-- A stream that runs through, and the part of it that concerns the piece, run side by side: they end with the same channel,
and the second collects the first's responses to the piece's commands. -/
theorem Owns.run_filter {p : Piece} {α : Type} {view : Block → α} (hp : Owns p view) (events : List HostEvent) :
    ∀ {s t u : State}, s.host.inputs = events → u.host.inputs = events.filter (concerns p) →
      view u.block = view s.block → run events.length s = .next t →
      ∃ v rs, run (events.filter (concerns p)).length u = .next v ∧ view v.block = view t.block ∧
        t.host.responses = s.host.responses ++ rs ∧
        v.host.responses = u.host.responses ++ responsesTo p events rs := by
  induction events with
  | nil =>
    intro s t u _ _ hview h
    cases h
    exact ⟨u, [], rfl, hview, by simp, by simp⟩
  | cons e events ih =>
    intro s t u hs hu hview h
    obtain ⟨s', hstep, hrun⟩ := (run_succ_next_iff _ _ _).1 h
    by_cases he : concerns p e = true
    · rw [List.filter_cons_of_pos he] at hu ⊢
      obtain ⟨u', o, hstep', hview', hts, htu⟩ := hp.step_of_concerns he hs hu hview hstep
      obtain ⟨v, rs, hv, hvt, ht, hr⟩ := ih hts.inputs htu.inputs hview' hrun
      refine ⟨v, o.toList ++ rs, (run_succ_next_iff _ _ _).2 ⟨u', hstep', hv⟩, hvt, ?_, ?_⟩
      · rw [ht, hts.responses, List.append_assoc]
      · rw [hr, htu.responses, responsesTo_cons p hts.answered, if_pos he, List.append_assoc]
    · rw [List.filter_cons_of_neg he] at hu ⊢
      obtain ⟨hview', o, hts⟩ := hp.step_of_not_concerns he hs hstep
      obtain ⟨v, rs, hv, hvt, ht, hr⟩ := ih hts.inputs hu (hview.trans hview'.symm) hrun
      refine ⟨v, o.toList ++ rs, hv, hvt, ?_, ?_⟩
      · rw [ht, hts.responses, List.append_assoc]
      · rw [hr, responsesTo_cons p hts.answered, if_neg he]

/-- The same for streams issued from one state, which begin without responses. -/
theorem Owns.issue_filter {p : Piece} {α : Type} {view : Block → α} (hp : Owns p view) {m t : State}
    {events : List HostEvent} (h : issue m events = .next t) :
    ∃ u, issue m (events.filter (concerns p)) = .next u ∧ view u.block = view t.block ∧
      u.host.responses = responsesTo p events t.host.responses := by
  obtain ⟨v, rs, hv, hvt, ht, hr⟩ :=
    hp.run_filter (s := m.present events) (u := m.present (events.filter (concerns p))) events rfl rfl rfl h
  simp only [State.present_responses, List.nil_append] at ht hr
  exact ⟨v, hv, hvt, by rw [hr, ht]⟩

/-- Settles O43: each channel is owned by its piece, so the stream may be cut down to that piece's events. -/
theorem channelsDoNotInterfere : Obligations.ChannelsDoNotInterfere :=
  fun _ _ _ h => ⟨owns_enc.issue_filter h, owns_dec.issue_filter h⟩

end Sys2Proof.Machine
end

section
/-! PROOF. The decoder and the encoder are inverse to each other (30_encoding.md R46 to R49, R52, R53): a command word is
read as the number `opc * 2^24 + opd`, from which its fields and the operand of each format are read back. -/

namespace Sys2Proof

/-! ## The fields as numbers (R46, R47) -/

theorem opcField_toNat (w : CommandWord) : (opcField w).toNat = w.toNat / 2 ^ 24 := by
  have := w.isLt
  simp only [opcField, BitVec.extractLsb'_toNat, Nat.shiftRight_eq_div_pow]
  omega

theorem zeroField_toNat (w : CommandWord) : (zeroField w).toNat = w.toNat / 2 ^ 16 % 256 := by
  simp only [zeroField, BitVec.extractLsb'_toNat, Nat.shiftRight_eq_div_pow, Nat.reducePow]

theorem opdField_toNat (w : CommandWord) : (opdField w).toNat = w.toNat % 65536 := by
  simp [opdField]

theorem opdHighByte_toNat (v : BitVec 16) : (opdHighByte v).toNat = v.toNat / 256 := by
  have := v.isLt
  simp only [opdHighByte, BitVec.extractLsb'_toNat, Nat.shiftRight_eq_div_pow]
  omega

theorem opdLowByte_toNat (v : BitVec 16) : (opdLowByte v).toNat = v.toNat % 256 := by
  simp [opdLowByte]

theorem opdHighBits_toNat (v : BitVec 16) : (opdHighBits v).toNat = v.toNat / 2 := by
  have := v.isLt
  simp only [opdHighBits, BitVec.extractLsb'_toNat, Nat.shiftRight_eq_div_pow]
  omega

theorem commandWord_toNat (opc : BitVec 8) (opd : BitVec 16) :
    (commandWord opc opd).toNat = opc.toNat * 2 ^ 24 + opd.toNat := by
  have h := Nat.shiftLeft_add_eq_or_of_lt opd.isLt (opc.toNat <<< 8)
  simp only [commandWord, BitVec.toNat_append, BitVec.toNat_ofNat, Nat.zero_mod, Nat.or_zero]
  rw [← h, ← Nat.shiftLeft_add, Nat.shiftLeft_eq]

/-! ## Taking a word apart and putting it together -/

@[simp] theorem opcField_commandWord (opc : BitVec 8) (opd : BitVec 16) : opcField (commandWord opc opd) = opc := by
  apply BitVec.eq_of_toNat_eq
  rw [opcField_toNat, commandWord_toNat]
  omega

@[simp] theorem zeroField_commandWord (opc : BitVec 8) (opd : BitVec 16) : zeroField (commandWord opc opd) = 0#8 := by
  apply BitVec.eq_of_toNat_eq
  rw [zeroField_toNat, commandWord_toNat, BitVec.toNat_zero]
  omega

@[simp] theorem opdField_commandWord (opc : BitVec 8) (opd : BitVec 16) : opdField (commandWord opc opd) = opd := by
  apply BitVec.eq_of_toNat_eq
  rw [opdField_toNat, commandWord_toNat]
  omega

/-- A word whose `zero` field is 0 is put together again from its other two fields. -/
theorem commandWord_of_fields {w : CommandWord} {opc : BitVec 8} {opd : BitVec 16} (hzero : zeroField w = 0#8)
    (hopc : (opcField w).toNat = opc.toNat) (hopd : opdField w = opd) : commandWord opc opd = w := by
  have hzero' := congrArg BitVec.toNat hzero
  rw [zeroField_toNat, BitVec.toNat_zero] at hzero'
  rw [opcField_toNat] at hopc
  apply BitVec.eq_of_toNat_eq
  rw [← hopd, commandWord_toNat, opdField_toNat]
  omega

/-! ## The operand of each format (R47, R48) -/

/-- The shape of the three formats that check their operand. -/
theorem ite_ok_error_eq_ok_iff {P : Prop} [Decidable P] (x : IllegalWord) (i j : Instr) :
    (if P then Except.ok i else .error x) = .ok j ↔ P ∧ i = j := by
  split <;> simp [*]

theorem decodeZ_eq_ok_iff (v : BitVec 16) (i j : Instr) : decodeZ v i = .ok j ↔ v = 0#16 ∧ i = j :=
  ite_ok_error_eq_ok_iff _ i j

/-- The high byte is 0 exactly when the operand is its low byte, a symbol. -/
theorem opdHighByte_eq_zero_iff (v : BitVec 16) : opdHighByte v = 0#8 ↔ v = (opdLowByte v).setWidth 16 := by
  simp only [← BitVec.toNat_inj, opdHighByte_toNat, BitVec.toNat_setWidth, opdLowByte_toNat, BitVec.toNat_zero]
  omega

@[simp] theorem opdLowByte_setWidth (c : Symbol) : opdLowByte (c.setWidth 16) = c := by
  apply BitVec.eq_of_toNat_eq
  rw [opdLowByte_toNat, BitVec.toNat_setWidth]
  omega

theorem decodeS_eq_ok_iff (v : BitVec 16) (mk : Symbol → Instr) (i : Instr) :
    decodeS v mk = .ok i ↔ ∃ c : Symbol, v = c.setWidth 16 ∧ mk c = i := by
  rw [decodeS, ite_ok_error_eq_ok_iff, opdHighByte_eq_zero_iff]
  exact ⟨fun h => ⟨_, h⟩, by rintro ⟨c, rfl, rfl⟩; simp⟩

theorem selectorOperand_opdSelector_toNat (v : BitVec 16) :
    (selectorOperand (opdSelector v)).toNat = v.toNat % 2 := by
  have hbit : v.getLsbD 0 = decide (v.toNat % 2 = 1) := Nat.testBit_zero v.toNat
  unfold opdSelector
  split <;> simp_all [selectorOperand]

/-- Bits 15:1 are 0 exactly when the operand is its bit 0, a selector. -/
theorem opdHighBits_eq_zero_iff (v : BitVec 16) : opdHighBits v = 0#15 ↔ v = selectorOperand (opdSelector v) := by
  simp only [← BitVec.toNat_inj, opdHighBits_toNat, selectorOperand_opdSelector_toNat, BitVec.toNat_zero]
  omega

@[simp] theorem opdSelector_selectorOperand (sel : StatusReg) : opdSelector (selectorOperand sel) = sel := by
  cases sel <;> rfl

theorem decodeR_eq_ok_iff (v : BitVec 16) (mk : StatusReg → Instr) (i : Instr) :
    decodeR v mk = .ok i ↔ ∃ sel, v = selectorOperand sel ∧ mk sel = i := by
  rw [decodeR, ite_ok_error_eq_ok_iff, opdHighBits_eq_zero_iff]
  exact ⟨fun h => ⟨_, h⟩, by rintro ⟨sel, rfl, rfl⟩; simp⟩

/-! ## The two directions -/

/-- Settles O1: the fields of an encoded command select its arm of the decoder, and its format reads the operand back. -/
theorem decodeOfEncodeIsTheCommand : Obligations.DecodeOfEncodeIsTheCommand := by
  intro i
  cases i with
  | encStart | encEnd | decStart | decEnd => simp [decode, encode, decodeZ_eq_ok_iff]
  | encSym c => simp [decode, encode, decodeS_eq_ok_iff]
  | decCode v | stcPack v | stcUnpack v => simp [decode, encode, decodeK]
  | rdStat sel => simp [decode, encode, decodeR_eq_ok_iff]

/-- Settles O2: the arm a word takes tells its opcode, and the arm's format tells the whole operand field. -/
theorem encodeOfDecodeIsTheWord : Obligations.EncodeOfDecodeIsTheWord := by
  intro w i h
  unfold decode at h
  split at h
  case isTrue hzero =>
    split at h
    case h_1 hopc | h_3 hopc | h_4 hopc | h_6 hopc =>
      obtain ⟨hopd, rfl⟩ := (decodeZ_eq_ok_iff _ _ _).1 h
      exact commandWord_of_fields hzero hopc hopd
    case h_2 hopc =>
      obtain ⟨c, hopd, rfl⟩ := (decodeS_eq_ok_iff _ _ _).1 h
      exact commandWord_of_fields hzero hopc hopd
    case h_5 hopc | h_7 hopc | h_8 hopc =>
      cases h
      exact commandWord_of_fields hzero hopc rfl
    case h_9 hopc =>
      obtain ⟨sel, hopd, rfl⟩ := (decodeR_eq_ok_iff _ _ _).1 h
      exact commandWord_of_fields hzero hopc hopd
    case h_10 => cases h
  case isFalse => cases h

/-- Decoding and encoding are inverse: the legal words are the encodings of the commands, each of one command. -/
theorem decode_eq_ok_iff (w : CommandWord) (i : Instr) : decode w = .ok i ↔ encode i = w :=
  ⟨encodeOfDecodeIsTheWord w i, fun h => h ▸ decodeOfEncodeIsTheCommand i⟩

/-- Settles O7: each word is the encoding of its command. -/
theorem writtenOutWordsDecode : Obligations.WrittenOutWordsDecode := by
  simp only [Obligations.WrittenOutWordsDecode, decode_eq_ok_iff]
  decide

end Sys2Proof
end

section
/-! PROOF. No command stops the machine from a state with the invariants (30_encoding.md R45; 70_reset_and_hazards.md R152):
the two stops need an `E.p` that is not in its table or an empty sequence, and R16, R19 and R73 exclude both. -/

namespace Sys2Proof.Machine

/-! ## The encoder -/

theorem EncInv.ctFind_prefix {e : EncChannel} (he : EncInv e) (hp : e.p ≠ []) : ∃ k, ctFind e.ct e.p = some k := by
  have := he.prefixes e.p.length (List.length_pos_iff.2 hp) le_rfl
  rwa [List.take_length, Option.isSome_iff_exists] at this

/-- A miss has a prefix: a single symbol is a seed and would be hit. -/
theorem ne_nil_of_miss {T : CodeTable} {p : SymSeq} {c : Symbol} (miss : ctFind T (p ++ [c]) = none) : p ≠ [] := by
  rintro rfl
  rw [List.nil_append] at miss
  simpa [miss] using ctFind_singleton_isSome T c

theorem encSym_answers {e : EncChannel} (he : EncInv e) (c : Symbol) : ∃ a, encSym c e = .ok a := by
  unfold encSym
  split
  case h_1 => exact ⟨_, rfl⟩
  case h_2 =>
    split
    case h_1 => exact ⟨_, rfl⟩
    case h_2 miss =>
      obtain ⟨k, hk⟩ := he.ctFind_prefix (ne_nil_of_miss miss)
      rw [encMiss, hk]
      exact ⟨_, rfl⟩

theorem encEnd_answers {e : EncChannel} (he : EncInv e) : ∃ a, encEnd e = .ok a := by
  unfold encEnd
  split
  case h_1 => exact ⟨_, rfl⟩
  case h_2 =>
    split
    case isTrue => exact ⟨_, rfl⟩
    case isFalse hp =>
      obtain ⟨k, hk⟩ := he.ctFind_prefix hp
      rw [hk]
      exact ⟨_, rfl⟩

/-! ## The decoder -/

theorem decResolve_answers (T : CodeTable) {pv : Bool} {prev : SymSeq} (hprev : pv = true → prev ≠ []) (k : Code) :
    ∃ o, decResolve T pv prev k = .ok o := by
  unfold decResolve
  split
  case isTrue => exact ⟨_, rfl⟩
  case isFalse =>
    split
    case isTrue hself =>
      obtain ⟨c, rest, rfl⟩ := List.exists_cons_of_ne_nil (hprev hself.2)
      exact ⟨_, rfl⟩
    case isFalse => exact ⟨_, rfl⟩

theorem decGrow_answers (T : CodeTable) (pv : Bool) (prev : SymSeq) {entry : SymSeq} (h : entry ≠ []) :
    ∃ U, decGrow T pv prev entry = .ok U := by
  obtain ⟨c, rest, rfl⟩ := List.exists_cons_of_ne_nil h
  cases pv with
  | false => exact ⟨_, rfl⟩
  | true => exact ⟨_, rfl⟩

theorem decCodeRun_answers {d : DecChannel} (hd : DecInv d) (k : Code) : ∃ a, decCodeRun k d = .ok a := by
  obtain ⟨o, hres⟩ := decResolve_answers (decMakeRoom d) hd.present k
  rw [decCodeRun, hres]
  cases o with
  | none => exact ⟨_, rfl⟩
  | some entry =>
    have hentry := decResolve_ne_nil (wf_decMakeRoom hd.entries) hres
    obtain ⟨U, hgrow⟩ := decGrow_answers (decMakeRoom d) d.pv d.prev hentry
    simp only [hgrow]
    exact ⟨_, rfl⟩

theorem decCode_answers {d : DecChannel} (hd : DecInv d) (k : Code) : ∃ a, decCode k d = .ok a := by
  unfold decCode
  split
  case h_1 => exact ⟨_, rfl⟩
  case h_2 => exact ⟨_, rfl⟩
  case h_3 => exact decCodeRun_answers hd k

theorem decEnd_answers (d : DecChannel) : ∃ a, decEnd d = .ok a := by
  unfold decEnd
  split <;> exact ⟨_, rfl⟩

/-! ## Every command and every event -/

theorem onEnc_answers {f : EncChannel → Answer EncChannel} {s : State} (h : ∃ a, f s.block.enc = .ok a) :
    ∃ t, onEnc f s = .next t := by
  obtain ⟨⟨e, r⟩, he⟩ := h
  exact ⟨_, (onEnc_next_iff f s _).2 ⟨e, r, he, rfl⟩⟩

theorem onDec_answers {f : DecChannel → Answer DecChannel} {s : State} (h : ∃ a, f s.block.dec = .ok a) :
    ∃ t, onDec f s = .next t := by
  obtain ⟨⟨d, r⟩, hd⟩ := h
  exact ⟨_, (onDec_next_iff f s _).2 ⟨d, r, hd, rfl⟩⟩

theorem exec_answers {s : State} (hs : s.Inv) (i : Instr) : ∃ t, exec i s = .next t := by
  cases i with
  | encStart => exact onEnc_answers (f := encStart) ⟨_, rfl⟩
  | encSym c => exact onEnc_answers (encSym_answers hs.enc c)
  | encEnd => exact onEnc_answers (encEnd_answers hs.enc)
  | decStart => exact onDec_answers (f := decStart) ⟨_, rfl⟩
  | decCode k => exact onDec_answers (decCode_answers hs.dec k)
  | decEnd => exact onDec_answers (decEnd_answers s.block.dec)
  | stcPack | stcUnpack | rdStat => exact ⟨_, rfl⟩

theorem step_answers {s : State} (hs : s.Inv) : ∃ t, step s = .next t := by
  rcases hin : s.host.inputs with _ | ⟨_ | w, rest⟩
  · exact ⟨_, step_of_no_event hin⟩
  · exact ⟨_, step_of_reset hin⟩
  · rcases hw : decode w with x | i
    · exact ⟨_, step_of_illegal hin hw⟩
    · rw [step_of_command hin hw]
      exact exec_answers (s := s.withInputs rest) (hs.of_block_eq rfl) i

/-- Settles O34: with the invariants no arm meets a stop, and what a step answers has them again. -/
theorem stepAnswersAndKeepsTheInvariants : Obligations.StepAnswersAndKeepsTheInvariants := by
  intro s hs
  obtain ⟨t, ht⟩ := step_answers hs
  exact ⟨t, ht, step_keeps_inv ht hs⟩

/-- Settles O8: the step of a legal word is that of `step_of_command`. -/
theorem stepExecutesTheDecodedCommand : Obligations.StepExecutesTheDecodedCommand :=
  fun _ _ _ _ hin hw => step_of_command hin hw

end Sys2Proof.Machine
end

section
/-! PROOF. The opcode map, the decoder and the list of illegal words tell the same words apart (30_encoding.md R49, R52, R53).
All three come down to one condition on the word as a number: its `opc` is the mnemonic's, and nothing stands above the
operand bits of the mnemonic's format. -/

namespace Sys2Proof

/-- The value of `opc` of each mnemonic (R49). -/
def Mnemonic.opcode : Mnemonic → Nat
  | .encStart => 0x01
  | .encSym => 0x02
  | .encEnd => 0x03
  | .decStart => 0x11
  | .decCode => 0x12
  | .decEnd => 0x13
  | .stcPack => 0x21
  | .stcUnpack => 0x22
  | .rdStat => 0x30

/-- The number of operand bits of each format (R47). -/
def Format.operandBits : Format → Nat
  | .Z => 0
  | .S => 8
  | .K => 16
  | .R => 1

/-- The word has the mnemonic's opcode, and 0 above the operand bits of its format. -/
def Mnemonic.Matches (m : Mnemonic) (w : CommandWord) : Prop :=
  w.toNat / 2 ^ 24 = m.opcode ∧ w.toNat % 2 ^ 24 < 2 ^ m.format.operandBits

theorem Mnemonic.opcode_injective : Function.Injective Mnemonic.opcode := by
  intro m m'
  cases m <;> cases m' <;> decide

/-! ## The words of a mnemonic's commands -/

theorem Format.two_pow_operandBits_le (f : Format) : 2 ^ f.operandBits ≤ 65536 := by
  cases f <;> decide

/-- The operand of a command as a number, 0 where it has none. -/
def Instr.operand (i : Instr) : Nat := (SourceCommand.ofInstr i).operand.getD 0

theorem Instr.rdStat_operand (sel : StatusReg) : (Instr.rdStat sel).operand = (selectorOperand sel).toNat := by
  cases sel <;> rfl

theorem Instr.operand_lt (i : Instr) : i.operand < 2 ^ i.mnemonic.format.operandBits := by
  cases i with
  | encStart | encEnd | decStart | decEnd => exact Nat.one_pos
  | encSym c => exact c.isLt
  | decCode v | stcPack v | stcUnpack v => exact v.isLt
  | rdStat sel => cases sel <;> decide

theorem encode_toNat (i : Instr) : (encode i).toNat = i.mnemonic.opcode * 2 ^ 24 + i.operand := by
  cases i with
  | encStart | encEnd | decStart | decEnd => rfl
  | encSym c =>
    rw [encode, commandWord_toNat, BitVec.toNat_setWidth_of_le (by decide)]
    rfl
  | decCode v | stcPack v | stcUnpack v => exact commandWord_toNat _ v
  | rdStat sel =>
    rw [encode, commandWord_toNat, Instr.rdStat_operand]
    rfl

theorem matches_encode (i : Instr) : i.mnemonic.Matches (encode i) := by
  have hlt := i.operand_lt
  have hle := i.mnemonic.format.two_pow_operandBits_le
  rw [Mnemonic.Matches, encode_toNat]
  constructor <;> omega

/-- The command of a mnemonic whose operand is what its format takes from an operand field (R47). -/
def Mnemonic.withField : Mnemonic → BitVec 16 → Instr
  | .encStart, _ => .encStart
  | .encSym, v => .encSym (opdLowByte v)
  | .encEnd, _ => .encEnd
  | .decStart, _ => .decStart
  | .decCode, v => .decCode v
  | .decEnd, _ => .decEnd
  | .stcPack, v => .stcPack v
  | .stcUnpack, v => .stcUnpack v
  | .rdStat, v => .rdStat (opdSelector v)

theorem Mnemonic.withField_mnemonic (m : Mnemonic) (v : BitVec 16) : (m.withField v).mnemonic = m := by
  cases m <;> rfl

theorem Mnemonic.withField_operand (m : Mnemonic) (v : BitVec 16) :
    (m.withField v).operand = v.toNat % 2 ^ m.format.operandBits := by
  cases m with
  | encStart | encEnd | decStart | decEnd => exact (Nat.mod_one _).symm
  | encSym => exact opdLowByte_toNat v
  | decCode | stcPack | stcUnpack => exact (Nat.mod_eq_of_lt v.isLt).symm
  | rdStat => exact (Instr.rdStat_operand _).trans (selectorOperand_opdSelector_toNat v)

theorem Mnemonic.encode_withField {m : Mnemonic} {w : CommandWord} (h : m.Matches w) :
    encode (m.withField (opdField w)) = w := by
  obtain ⟨hopc, hlt⟩ := h
  have hle := m.format.two_pow_operandBits_le
  have hfield : w.toNat % 65536 = w.toNat % 2 ^ 24 := by omega
  apply BitVec.eq_of_toNat_eq
  rw [encode_toNat, withField_mnemonic, withField_operand, opdField_toNat, hfield, Nat.mod_eq_of_lt hlt, ← hopc]
  omega

/-- A word decodes to a command of a mnemonic exactly when it matches the mnemonic. -/
theorem decodes_iff_matches (w : CommandWord) (m : Mnemonic) :
    (∃ i, decode w = .ok i ∧ i.mnemonic = m) ↔ m.Matches w := by
  simp only [decode_eq_ok_iff]
  constructor
  · rintro ⟨i, rfl, rfl⟩
    exact matches_encode i
  · intro h
    exact ⟨_, Mnemonic.encode_withField h, m.withField_mnemonic _⟩

/-- The decoder rejects a word exactly when it matches no mnemonic. -/
theorem rejected_iff_no_match (w : CommandWord) : (∃ x, decode w = .error x) ↔ ¬ ∃ m : Mnemonic, m.Matches w := by
  simp only [← decodes_iff_matches]
  rcases decode w with x | i <;> simp

/-! ## The rows of the opcode map -/

theorem mem_allMnemonics (m : Mnemonic) : m ∈ Machine.allMnemonics := by
  cases m <;> decide

/-- The row of a mnemonic: the mask covers all but the operand bits of its format. -/
def Mnemonic.row (m : Mnemonic) : OpcodeRow where
  mnemonic := m
  pattern := BitVec.ofNat 32 (m.opcode * 2 ^ 24)
  mask := BitVec.allOnes 32 <<< m.format.operandBits

theorem mem_opcodeMap_iff (r : OpcodeRow) : r ∈ opcodeMap ↔ ∃ m : Mnemonic, m.row = r := by
  have hmap : opcodeMap = Machine.allMnemonics.map Mnemonic.row := by decide
  simp [hmap, mem_allMnemonics]

/-- Masking clears the operand bits, so what is compared is the word without them. -/
theorem row_holds_iff_matches (m : Mnemonic) (w : CommandWord) :
    w &&& m.row.mask = m.row.pattern ↔ m.Matches w := by
  have := w.isLt
  rw [Mnemonic.row, ← BitVec.shiftLeft_ushiftRight, ← BitVec.toNat_inj, Mnemonic.Matches]
  simp only [BitVec.toNat_shiftLeft, BitVec.toNat_ushiftRight, Nat.shiftRight_eq_div_pow, Nat.shiftLeft_eq,
    BitVec.toNat_ofNat]
  cases m <;> simp only [Mnemonic.opcode, Mnemonic.format, Format.operandBits] <;> omega

/-- Settles O3: the mask test and the decoder come down to the same condition, which tells the opcode. -/
theorem decoderFollowsTheOpcodeMap : Obligations.DecoderFollowsTheOpcodeMap := by
  constructor
  · intro w m
    rw [decodes_iff_matches]
    simp only [mem_opcodeMap_iff]
    constructor
    · intro h
      exact ⟨m.row, ⟨m, rfl⟩, rfl, (row_holds_iff_matches m w).2 h⟩
    · rintro ⟨_, ⟨m, rfl⟩, rfl, h⟩
      exact (row_holds_iff_matches m w).1 h
  · intro r hr r' hr' w h h'
    obtain ⟨m, rfl⟩ := (mem_opcodeMap_iff r).1 hr
    obtain ⟨m', rfl⟩ := (mem_opcodeMap_iff r').1 hr'
    obtain ⟨hopc, _⟩ := (row_holds_iff_matches m w).1 h
    obtain ⟨hopc', _⟩ := (row_holds_iff_matches m' w).1 h'
    rw [Mnemonic.opcode_injective (hopc.symm.trans hopc')]

/-! ## The illegal words (R52) -/

theorem isIllegal_iff_no_match (w : CommandWord) : isIllegal w = true ↔ ¬ ∃ m : Mnemonic, m.Matches w := by
  simp [isIllegal, OpcodeRow.holds, mem_opcodeMap_iff, ← row_holds_iff_matches]

theorem exists_opcode_eq_iff (n : Nat) :
    (∃ m : Mnemonic, m.opcode = n) ↔ n ∈ [0x01, 0x02, 0x03, 0x11, 0x12, 0x13, 0x21, 0x22, 0x30] := by
  have hmap : [0x01, 0x02, 0x03, 0x11, 0x12, 0x13, 0x21, 0x22, 0x30] = Machine.allMnemonics.map Mnemonic.opcode := rfl
  simp [hmap, mem_allMnemonics]

theorem Mnemonic.format_eq_Z_iff (m : Mnemonic) : m.format = .Z ↔ m.opcode ∈ [0x01, 0x03, 0x11, 0x13] := by
  cases m <;> decide

theorem Mnemonic.format_eq_S_iff (m : Mnemonic) : m.format = .S ↔ m.opcode = 0x02 := by
  cases m <;> decide

theorem Mnemonic.format_eq_R_iff (m : Mnemonic) : m.format = .R ↔ m.opcode = 0x30 := by
  cases m <;> decide

/-- Nothing stands above a format's operand bits exactly when the fields that R47 wants 0 are 0. -/
theorem Format.lt_two_pow_operandBits_iff (f : Format) (n : Nat) :
    n % 2 ^ 24 < 2 ^ f.operandBits ↔
      n / 2 ^ 16 % 256 = 0 ∧ (f = .Z → n % 65536 = 0) ∧ (f = .S → n % 65536 / 256 = 0) ∧
      (f = .R → n % 65536 / 2 = 0) := by
  cases f <;> simp [operandBits] <;> omega

/-- The words that match some mnemonic are those that fall under none of the five cases of R52. -/
theorem exists_matches_iff (w : CommandWord) :
    (∃ m : Mnemonic, m.Matches w) ↔
      w.toNat / 2 ^ 24 ∈ [0x01, 0x02, 0x03, 0x11, 0x12, 0x13, 0x21, 0x22, 0x30] ∧ w.toNat / 2 ^ 16 % 256 = 0 ∧
      (w.toNat / 2 ^ 24 ∈ [0x01, 0x03, 0x11, 0x13] → w.toNat % 65536 = 0) ∧
      (w.toNat / 2 ^ 24 = 0x02 → w.toNat % 65536 / 256 = 0) ∧
      (w.toNat / 2 ^ 24 = 0x30 → w.toNat % 65536 / 2 = 0) := by
  simp only [Mnemonic.Matches, Format.lt_two_pow_operandBits_iff, Mnemonic.format_eq_Z_iff, Mnemonic.format_eq_S_iff,
    Mnemonic.format_eq_R_iff, ← exists_opcode_eq_iff]
  constructor
  · rintro ⟨m, hopc, hlow⟩
    exact ⟨⟨m, hopc.symm⟩, hopc ▸ hlow⟩
  · rintro ⟨⟨m, hopc⟩, hlow⟩
    exact ⟨m, hopc.symm, hopc ▸ hlow⟩

/-- Settles O5: decoder and opcode map reject what matches no mnemonic, and R52 lists the ways not to match. -/
theorem illegalWordsAreTheListedOnes : Obligations.IllegalWordsAreTheListedOnes := by
  intro w
  rw [rejected_iff_no_match, isIllegal_iff_no_match]
  refine ⟨?_, Iff.rfl⟩
  simp only [exists_matches_iff, not_and_or, Classical.not_imp, ne_eq]

end Sys2Proof
end

section
/-! PROOF. The operand of a command (30_encoding.md R48, R55): the decoder takes it from the word's low bits, and the assembler
takes it as written or refuses it. -/

namespace Sys2Proof

/-- The operand of a decoded command is the word's low bits, as many as its format has (R48). -/
theorem operand_of_decode {w : CommandWord} {i : Instr} (h : decode w = .ok i) :
    i.operand = w.toNat % 2 ^ i.mnemonic.format.operandBits := by
  rw [decode_eq_ok_iff] at h
  obtain ⟨c, hc⟩ : 2 ^ i.mnemonic.format.operandBits ∣ 2 ^ 24 :=
    pow_dvd_pow 2 (by cases i.mnemonic.format <;> decide)
  rw [← h, encode_toNat, hc, Nat.mul_left_comm, Nat.mul_add_mod, Nat.mod_eq_of_lt i.operand_lt]

/-- A source command that fits is taken with exactly the operand it has. -/
theorem SourceCommand.toInstr_of_fits {m : Mnemonic} {o : Option Nat} (h : m.format.fits o = true) :
    ∃ i, SourceCommand.toInstr ⟨m, o⟩ = some i ∧ SourceCommand.ofInstr i = ⟨m, o⟩ := by
  cases m with
  | encStart | encEnd | decStart | decEnd =>
    cases o with
    | none => exact ⟨_, rfl, rfl⟩
    | some n => cases h
  | encSym =>
    cases o with
    | none => cases h
    | some n =>
      have hn : n ≤ 255 := of_decide_eq_true h
      exact ⟨.encSym (BitVec.ofNat 8 n), if_pos h, by simp [ofInstr, Nat.mod_eq_of_lt (Nat.lt_succ_of_le hn)]⟩
  | decCode | stcPack | stcUnpack =>
    cases o with
    | none => cases h
    | some n =>
      have hn : n ≤ 65535 := of_decide_eq_true h
      exact ⟨_, if_pos h, by simp [ofInstr, Nat.mod_eq_of_lt (Nat.lt_succ_of_le hn)]⟩
  | rdStat =>
    cases o with
    | none => cases h
    | some n =>
      have hn : n ≤ 1 := of_decide_eq_true h
      obtain rfl | rfl := Nat.le_one_iff_eq_zero_or_eq_one.1 hn
      · exact ⟨_, rfl, rfl⟩
      · exact ⟨_, rfl, rfl⟩

theorem SourceCommand.toInstr_eq_none_iff (m : Mnemonic) (o : Option Nat) :
    SourceCommand.toInstr ⟨m, o⟩ = none ↔ ¬ m.format.fits o = true := by
  constructor
  · intro h hfits
    obtain ⟨i, hi, _⟩ := toInstr_of_fits hfits
    cases h.symm.trans hi
  · intro h
    exact if_neg h

theorem SourceCommand.ofInstr_of_toInstr {m : Mnemonic} {o : Option Nat} {i : Instr}
    (h : SourceCommand.toInstr ⟨m, o⟩ = some i) : SourceCommand.ofInstr i = ⟨m, o⟩ := by
  have hfits : m.format.fits o = true := by
    by_contra hn
    cases ((toInstr_eq_none_iff m o).2 hn).symm.trans h
  obtain ⟨j, hj, hofInstr⟩ := toInstr_of_fits hfits
  cases h.symm.trans hj
  exact hofInstr

/-- Settles O4: the operand bits are those of the format, and a source operand above their range does not fit it. -/
theorem operandIsTheWordsLowBits : Obligations.OperandIsTheWordsLowBits := by
  refine ⟨fun w c h => operand_of_decode h, fun w k h => operand_of_decode h, fun w k h => operand_of_decode h,
    fun w u h => operand_of_decode h, fun w sel h => ?_, fun n hn => ?_, fun n hn => ⟨?_, ?_, ?_⟩⟩
  · have hsel : (Instr.rdStat sel).operand = w.toNat % 2 := operand_of_decode h
    rw [← hsel]
    cases sel <;> decide
  all_goals
    rw [SourceCommand.toInstr_eq_none_iff]
    simpa [Mnemonic.format, Format.fits] using hn

/-- Settles O54: the refusal is the format's check, and what passes it is taken as written. -/
theorem assemblerRefusesWhatDoesNotFit : Obligations.AssemblerRefusesWhatDoesNotFit := by
  intro m o
  refine ⟨?_, fun i => SourceCommand.ofInstr_of_toInstr⟩
  rw [SourceCommand.toInstr_eq_none_iff]
  cases m.format <;> cases o <;> simp [Format.fits]

end Sys2Proof
end

section
/-! PROOF. What each command can answer (30_encoding.md R50; 60_exceptions.md R120): one row per command, from which the kind
and number of the items and the statuses are read off. -/

namespace Sys2Proof.Machine

/-- The responses a command can give. -/
def CanAnswer : Instr → Response → Prop
  | .encStart, r | .decStart, r => r = accept []
  | .encSym _, r | .encEnd, r => r = reject .errSeq ∨ r = accept [] ∨ ∃ k, r = accept [.code k]
  | .decCode _, r => r = reject .errSeq ∨ r = reject .errDecode ∨ ∃ c rest, r = accept ((c :: rest).map .symbol)
  | .decEnd, r => r = reject .errSeq ∨ r = reject .errDecode ∨ r = accept []
  | .stcPack _, r => ∃ u, r = accept [.unit u]
  | .stcUnpack _, r => ∃ k, r = accept [.code k]
  | .rdStat _, r => ∃ v, r = accept [.word v]

theorem encSym_canAnswer {c : Symbol} {e e' : EncChannel} {r : Response} (h : encSym c e = .ok (e', r)) :
    CanAnswer (.encSym c) r := by
  rcases encSym_cases h with ⟨_, _, hr⟩ | ⟨_, _, _, hr⟩ | ⟨_, _, _, _, _, hr⟩
  · exact .inl hr
  · exact .inr (.inl hr)
  · exact .inr (.inr ⟨_, hr⟩)

theorem encEnd_canAnswer {e e' : EncChannel} {r : Response} (h : encEnd e = .ok (e', r)) : CanAnswer .encEnd r := by
  rcases encEnd_cases h with ⟨_, _, hr⟩ | ⟨_, _, _, hr⟩ | ⟨_, _, _, _, _, hr⟩
  · exact .inl hr
  · exact .inr (.inl hr)
  · exact .inr (.inr ⟨_, hr⟩)

theorem decCode_canAnswer {k : Code} {d d' : DecChannel} {r : Response} (hd : DecInv d)
    (h : decCode k d = .ok (d', r)) : CanAnswer (.decCode k) r := by
  rcases decCode_cases h with ⟨_, _, hr⟩ | ⟨_, _, hr⟩ | ⟨_, _, _, hr⟩ | ⟨entry, _, _, hres, _, _, hr⟩
  · exact .inl hr
  · exact .inr (.inl hr)
  · exact .inr (.inl hr)
  · obtain ⟨c, rest, rfl⟩ := List.exists_cons_of_ne_nil (decResolve_ne_nil (wf_decMakeRoom hd.entries) hres)
    exact .inr (.inr ⟨c, rest, hr⟩)

theorem decEnd_canAnswer {d d' : DecChannel} {r : Response} (h : decEnd d = .ok (d', r)) : CanAnswer .decEnd r := by
  rcases decEnd_cases h with ⟨_, _, hr⟩ | ⟨_, _, hr⟩ | ⟨_, _, hr⟩
  · exact .inl hr
  · exact .inr (.inl hr)
  · exact .inr (.inr hr)

theorem exec_canAnswer {i : Instr} {s t : State} (hs : s.Inv) (h : exec i s = .next t) :
    ∃ r, t.host.responses = s.host.responses ++ [r] ∧ CanAnswer i r := by
  cases i with
  | encStart =>
    obtain ⟨e, r, he, rfl⟩ := (onEnc_next_iff encStart s t).1 h
    cases he
    exact ⟨_, rfl, rfl⟩
  | encSym c =>
    obtain ⟨e, r, he, rfl⟩ := (onEnc_next_iff (encSym c) s t).1 h
    exact ⟨r, rfl, encSym_canAnswer he⟩
  | encEnd =>
    obtain ⟨e, r, he, rfl⟩ := (onEnc_next_iff encEnd s t).1 h
    exact ⟨r, rfl, encEnd_canAnswer he⟩
  | decStart =>
    obtain ⟨d, r, hd, rfl⟩ := (onDec_next_iff decStart s t).1 h
    cases hd
    exact ⟨_, rfl, rfl⟩
  | decCode k =>
    obtain ⟨d, r, hd, rfl⟩ := (onDec_next_iff (decCode k) s t).1 h
    exact ⟨r, rfl, decCode_canAnswer hs.dec hd⟩
  | decEnd =>
    obtain ⟨d, r, hd, rfl⟩ := (onDec_next_iff decEnd s t).1 h
    exact ⟨r, rfl, decEnd_canAnswer hd⟩
  | stcPack | stcUnpack | rdStat =>
    rw [(answerOnly_next_iff s t _).1 h]
    exact ⟨_, rfl, _, rfl⟩

/-- Settles O41: each clause is read off the command's row, response by response. -/
theorem responsesHaveTheirCommandsShape : Obligations.ResponsesHaveTheirCommandsShape := by
  intro i s t hs h
  obtain ⟨r, hresponses, hr⟩ := exec_canAnswer hs h
  refine ⟨r, hresponses, ?_⟩
  cases i with
  | encStart | decStart =>
    obtain rfl : r = accept [] := hr
    simp [oneKind]
  | encSym | encEnd => obtain rfl | rfl | ⟨k, rfl⟩ := hr <;> simp [oneKind, Item.code?]
  | decCode => obtain rfl | rfl | ⟨c, rest, rfl⟩ := hr <;> simp [oneKind, Item.symbol?]
  | decEnd => obtain rfl | rfl | rfl := hr <;> simp [oneKind]
  | stcPack =>
    obtain ⟨u, rfl⟩ := hr
    simp [oneKind, Item.unit?]
  | stcUnpack =>
    obtain ⟨k, rfl⟩ := hr
    simp [oneKind, Item.code?]
  | rdStat =>
    obtain ⟨v, rfl⟩ := hr
    simp [oneKind, Item.word?]

end Sys2Proof.Machine
end

section
/-! PROOF. The Code Table primitives (41_code_table.md R61 to R65). CT.INSERT writes the location at `next` of the table after
the table reset, and no other; what its callers and a run of insertions do to a table follows from that. -/

namespace Sys2Proof.Machine

/-! ## CT.GET and CT.FIND -/

/-- Settles O11: seeds below 256, and from there on a read of the list of assigned entries. -/
theorem getReadsBelowNext : Obligations.GetReadsBelowNext := by
  refine fun T => ⟨fun k hk => ctGet_seed T (Nat.lt_succ_of_le hk), fun k hk => ?_, fun k => (ctGet_eq_none_iff T k).2, ?_⟩
  · exact Option.isSome_iff_exists.1 ((ctGet_isSome_iff T k).2 hk)
  · rintro _ j rfl
    exact ctGet_assigned T j

/-- A single symbol is found at its own value: the seeds below it are other symbols (R62). -/
theorem ctFind_singleton (T : CodeTable) (c : Symbol) : ctFind T [c] = some c.toNat := by
  refine (ctFind_eq_some_iff T [c] _).2 ⟨by simp [ctGet_seed T c.isLt], fun j hj h => ?_⟩
  have hj256 : j < 256 := hj.trans c.isLt
  rw [ctGet_seed T hj256, Option.some.injEq, List.singleton_inj] at h
  rw [← h, BitVec.toNat_ofNat, Nat.mod_eq_of_lt hj256] at hj
  exact Nat.lt_irrefl _ hj

/-- Settles O12: what reads as a sequence at all reads so below `next`. -/
theorem findGivesTheLeastMatch : Obligations.FindGivesTheLeastMatch := by
  refine fun T q => ⟨fun k => ?_, ?_, ctFind_singleton T, fun hT => ?_⟩
  · rw [ctFind_eq_some_iff]
    exact ⟨fun h => ⟨lt_next_of_ctGet h.1, h⟩, And.right⟩
  · rw [ctFind_eq_none_iff]
    exact ⟨fun h k _ => h k, fun h k hk => h k (lt_next_of_ctGet hk) hk⟩
  · exact (ctFind_eq_none_iff T []).2 fun k hk => ctGet_ne_nil hT hk rfl

/-! ## CT.INSERT -/

theorem ctGet_ctInsert_new (T : CodeTable) (q : SymSeq) : ctGet (ctInsert T q).2 (ctMakeRoom T).next = some q := by
  simp [CodeTable.next_eq, ctGet_assigned]

theorem ctGet_ctInsert_of_ne (T : CodeTable) (q : SymSeq) {k : Nat} (hk : k ≠ (ctMakeRoom T).next) :
    ctGet (ctInsert T q).2 k = ctGet (ctMakeRoom T) k := by
  rcases Nat.lt_or_ge k 256 with h | h
  · rw [ctGet_seed _ h, ctGet_seed _ h]
  · obtain ⟨j, rfl⟩ := Nat.exists_eq_add_of_le h
    have hj : j ≠ (ctMakeRoom T).assigned.length := fun hj => hk (by rw [hj, CodeTable.next_eq])
    rw [ctGet_assigned, ctGet_assigned, ctInsert_assigned]
    rcases Nat.lt_or_gt_of_ne hj with hlt | hgt
    · exact List.getElem?_append_left hlt
    · rw [List.getElem?_eq_none hgt.le, List.getElem?_eq_none (by simpa using hgt)]

/-- Settles O13: the two rules of a read after CT.INSERT, with the table after the reset initial or unchanged. -/
theorem insertAssignsTheNextCode : Obligations.InsertAssignsTheNextCode := by
  refine fun T q => ⟨fun hfull => ?_, fun hroom => ?_, fun k hk => ctGet_seed _ (Nat.lt_succ_of_le hk)⟩
  · have hnew := ctGet_ctInsert_new T q
    have hnext := ctInsert_next T q
    rw [ctMakeRoom_of_full hfull, CodeTable.initial_next] at hnew hnext
    refine ⟨by rw [ctInsert_code, ctMakeRoom_of_full hfull, CodeTable.initial_next], hnext, hnew, fun k hk => ?_⟩
    exact (ctGet_eq_none_iff _ k).2 (hnext.trans_le hk)
  · have hnew := ctGet_ctInsert_new T q
    have hnext := ctInsert_next T q
    have hframe := fun k => ctGet_ctInsert_of_ne T q (k := k)
    rw [ctMakeRoom_of_not_full hroom] at hnew hnext hframe
    exact ⟨by rw [ctInsert_code, ctMakeRoom_of_not_full hroom], hnext, CodeTable.next_le _, hnew, hframe⟩

/-! ## Runs of insertions (R65) -/

/-- The last insertion of a run, made on what the others left. -/
theorem insertAll_concat (qs : List SymSeq) (q : SymSeq) (r : Nat) (T : CodeTable) :
    insertAll (qs ++ [q]) r T =
      (if (insertAll qs r T).2.next = 65536 then (insertAll qs r T).1 + 1 else (insertAll qs r T).1,
        (ctInsert (insertAll qs r T).2 q).2) := by
  induction qs generalizing r T with
  | nil => rfl
  | cons p qs ih => exact ih _ _

/-- The count and the table after any run from the initial table, the empty run included. The next insertion resets exactly
when 65280 divides the number made so far and that number is not 0, which is where the quotient goes up. -/
theorem insertAll_initial (qs : List SymSeq) :
    (insertAll qs 0 CodeTable.initial).1 = (qs.length - 1) / 65280 ∧
    (insertAll qs 0 CodeTable.initial).2.assigned = qs.drop (65280 * ((qs.length - 1) / 65280)) := by
  induction qs using List.reverseRecOn with
  | nil => exact ⟨rfl, rfl⟩
  | append_singleton qs q ih =>
    obtain ⟨hresets, hassigned⟩ := ih
    rw [insertAll_concat, List.length_append, List.length_singleton, Nat.add_sub_cancel, ctInsert_assigned]
    have hnext := (insertAll qs 0 CodeTable.initial).2.next_eq
    rw [hassigned, List.length_drop] at hnext
    by_cases hfull : (insertAll qs 0 CodeTable.initial).2.next = 65536
    · have hcount : qs.length / 65280 = (qs.length - 1) / 65280 + 1 := by omega
      have hdrop : 65280 * (qs.length / 65280) = qs.length := by omega
      rw [if_pos hfull, ctMakeRoom_of_full hfull, hdrop, List.drop_left, hresets, hcount]
      exact ⟨rfl, rfl⟩
    · have hcount : qs.length / 65280 = (qs.length - 1) / 65280 := by omega
      rw [if_neg hfull, ctMakeRoom_of_not_full hfull, hcount, hresets, hassigned,
        List.drop_append_of_le_length (by omega)]
      exact ⟨rfl, rfl⟩

/-- Settles O14, by induction on the run from its end. -/
theorem resetsAreCountedByInsertions : Obligations.ResetsAreCountedByInsertions :=
  ⟨CodeTable.next_le, rfl, fun qs _ => insertAll_initial qs⟩

end Sys2Proof.Machine
end

section
/-! PROOF. In one step a table stays, is initialised, or takes one insertion, whatever the command (10_state.md R19 (d);
41_code_table.md R64). DEC.CODE makes its table reset ahead of the insertion, which comes to the same. -/

namespace Sys2Proof.Machine

/-- What one step can do to a table. -/
inductive TableMove (T : CodeTable) : CodeTable → Prop where
  | keep : TableMove T T
  | init : TableMove T CodeTable.initial
  | insert (q : SymSeq) : TableMove T (ctInsert T q).2

theorem TableMove.of_eq {T U : CodeTable} (h : U = T) : TableMove T U := h ▸ .keep

theorem ctMakeRoom_idem (T : CodeTable) : ctMakeRoom (ctMakeRoom T) = ctMakeRoom T := by
  rcases ctMakeRoom_cases T with ⟨_, h⟩ | ⟨_, h⟩
  · rw [h, ctMakeRoom_of_not_full (by simp)]
  · rw [h, h]

/-- The insertion makes no second table reset where one was made before it. -/
theorem ctInsert_ctMakeRoom (T : CodeTable) (q : SymSeq) : ctInsert (ctMakeRoom T) q = ctInsert T q :=
  Prod.ext (by simp [ctMakeRoom_idem]) (CodeTable.eq_of_assigned (by simp [ctMakeRoom_idem]))

theorem encSym_tableMove {c : Symbol} {e e' : EncChannel} {r : Response} (h : encSym c e = .ok (e', r)) :
    TableMove e.ct e'.ct := by
  rcases encSym_cases h with ⟨_, rfl, _⟩ | ⟨_, _, rfl, _⟩ | ⟨_, _, _, _, rfl, _⟩
  · exact .keep
  · exact .keep
  · exact .insert _

theorem encEnd_tableMove {e e' : EncChannel} {r : Response} (h : encEnd e = .ok (e', r)) : TableMove e.ct e'.ct := by
  rcases encEnd_cases h with ⟨_, rfl, _⟩ | ⟨_, _, rfl, _⟩ | ⟨_, _, _, _, rfl, _⟩
  · exact .keep
  · exact .init
  · exact .init

/-- Steps (a) and (c) of DEC.CODE together: nothing without a `previous`, else one CT.INSERT on the table as it was (R81). -/
theorem decGrow_decMakeRoom_tableMove {d : DecChannel} {entry : SymSeq} {U : CodeTable}
    (h : decGrow (decMakeRoom d) d.pv d.prev entry = .ok U) : TableMove d.ct U := by
  rcases decGrow_cases h with ⟨hpv, rfl⟩ | ⟨c, _, hpv, _, rfl⟩
  · exact .of_eq (by simp [decMakeRoom_eq, hpv])
  · rw [decMakeRoom_eq, if_pos hpv, ctInsert_ctMakeRoom]
    exact .insert _

theorem decCode_tableMove {k : Code} {d d' : DecChannel} {r : Response} (h : decCode k d = .ok (d', r)) :
    TableMove d.ct d'.ct := by
  rcases decCode_cases h with ⟨_, rfl, _⟩ | ⟨_, rfl, _⟩ | ⟨_, _, rfl, _⟩ | ⟨_, _, _, _, hgrow, rfl, _⟩
  · exact .keep
  · exact .keep
  · exact .init
  · exact decGrow_decMakeRoom_tableMove hgrow

theorem decEnd_tableMove {d d' : DecChannel} {r : Response} (h : decEnd d = .ok (d', r)) : TableMove d.ct d'.ct := by
  rcases decEnd_cases h with ⟨_, rfl, _⟩ | ⟨_, rfl, _⟩ | ⟨_, rfl, _⟩
  · exact .keep
  · exact .keep
  · exact .init

theorem exec_enc_tableMove {i : Instr} {s t : State} (h : exec i s = .next t) :
    TableMove s.block.enc.ct t.block.enc.ct := by
  cases i with
  | encStart =>
    obtain ⟨e, r, he, rfl⟩ := (onEnc_next_iff encStart s t).1 h
    cases he
    exact .init
  | encSym c =>
    obtain ⟨e, r, he, rfl⟩ := (onEnc_next_iff (encSym c) s t).1 h
    exact encSym_tableMove he
  | encEnd =>
    obtain ⟨e, r, he, rfl⟩ := (onEnc_next_iff encEnd s t).1 h
    exact encEnd_tableMove he
  | decStart | decCode | decEnd | stcPack | stcUnpack | rdStat =>
    exact .of_eq (congrArg EncChannel.ct (exec_keeps_enc (by simp [Instr.piece_eq_enc_iff]) h))

theorem exec_dec_tableMove {i : Instr} {s t : State} (h : exec i s = .next t) :
    TableMove s.block.dec.ct t.block.dec.ct := by
  cases i with
  | decStart =>
    obtain ⟨d, r, hd, rfl⟩ := (onDec_next_iff decStart s t).1 h
    cases hd
    exact .init
  | decCode k =>
    obtain ⟨d, r, hd, rfl⟩ := (onDec_next_iff (decCode k) s t).1 h
    exact decCode_tableMove hd
  | decEnd =>
    obtain ⟨d, r, hd, rfl⟩ := (onDec_next_iff decEnd s t).1 h
    exact decEnd_tableMove hd
  | encStart | encSym | encEnd | stcPack | stcUnpack | rdStat =>
    exact .of_eq (congrArg DecChannel.ct (exec_keeps_dec (by simp [Instr.piece_eq_dec_iff]) h))

theorem step_tableMoves {s t : State} (h : step s = .next t) :
    TableMove s.block.enc.ct t.block.enc.ct ∧ TableMove s.block.dec.ct t.block.dec.ct := by
  rcases hin : s.host.inputs with _ | ⟨_ | w, rest⟩
  · rw [step_of_no_event hin] at h
    cases h
    exact ⟨.keep, .keep⟩
  · rw [step_of_reset hin] at h
    cases h
    exact ⟨.init, .init⟩
  · rcases hw : decode w with x | i
    · rw [step_of_illegal hin hw] at h
      cases h
      exact ⟨.keep, .keep⟩
    · rw [step_of_command hin hw] at h
      exact ⟨exec_enc_tableMove (s := s.withInputs rest) h, exec_dec_tableMove (s := s.withInputs rest) h⟩

/-- Where the table is not full, CT.INSERT keeps the code of every entry (R64). -/
theorem ctGet_ctInsert_of_populated {T : CodeTable} (hroom : T.next < 65536) (q : SymSeq) {k : Nat} {p : SymSeq}
    (h : ctGet T k = some p) : ctGet (ctInsert T q).2 k = some p := by
  have hkeep := ctMakeRoom_of_not_full hroom.ne
  rw [ctGet_ctInsert_of_ne T q (by rw [hkeep]; exact (lt_next_of_ctGet h).ne), hkeep, h]

/-- Settles O38: of the three moves only an insertion into a full table discards entries and leaves one. -/
theorem entriesAreNeverChangedOneByOne : Obligations.EntriesAreNeverChangedOneByOne := by
  intro s t h T U hTU
  have hmove : TableMove T U := by
    obtain ⟨henc, hdec⟩ := step_tableMoves h
    rcases hTU with ⟨rfl, rfl⟩ | ⟨rfl, rfl⟩
    · exact henc
    · exact hdec
  cases hmove with
  | keep => exact .inl ⟨le_rfl, fun _ _ hk => hk⟩
  | init => exact .inr (.inl rfl)
  | insert q =>
    rcases ctMakeRoom_cases T with ⟨hfull, hroom⟩ | ⟨hlt, hroom⟩
    · exact .inr (.inr ⟨hfull, q, by rw [ctInsert_assigned, hroom]; rfl⟩)
    · refine .inl ⟨?_, fun k p => ctGet_ctInsert_of_populated hlt q⟩
      rw [ctInsert_next, hroom]
      exact Nat.le_succ _

end Sys2Proof.Machine
end

section
/-! PROOF. The encoder's commands one by one (42_encoder.md R70 to R72): an equation per branch, from which the whole next
state of a command follows; and what a command emits and writes (R78; 41_code_table.md R63, R64). -/

namespace Sys2Proof.Machine

/-! ## The branches of the three commands -/

theorem encSym_of_hit {e : EncChannel} {c : Symbol} {j : Nat} (hst : e.st = .run)
    (hit : ctFind e.ct (e.p ++ [c]) = some j) :
    encSym c e = .ok ({ st := .run, p := e.p ++ [c], ct := e.ct }, accept []) := by
  simp [encSym, hst, hit, encHit]

theorem encSym_of_miss {e : EncChannel} {c : Symbol} {k : Nat} (hst : e.st = .run)
    (miss : ctFind e.ct (e.p ++ [c]) = none) (hp : ctFind e.ct e.p = some k) :
    encSym c e = .ok ({ st := .run, p := [c], ct := (ctInsert e.ct (e.p ++ [c])).2 },
      accept [.code (codeOfIndex k)]) := by
  simp [encSym, hst, miss, encMiss, hp]

/-- An empty prefix always hits, since a single symbol is a seed. -/
theorem encSym_of_empty {e : EncChannel} (c : Symbol) (hst : e.st = .run) (hp : e.p = []) :
    encSym c e = .ok ({ st := .run, p := [c], ct := e.ct }, accept []) := by
  have hq : e.p ++ [c] = [c] := by rw [hp, List.nil_append]
  have h := encSym_of_hit (c := c) hst (hq ▸ ctFind_singleton e.ct c)
  rwa [hq] at h

theorem encEnd_of_empty {e : EncChannel} (hst : e.st = .run) (hp : e.p = []) :
    encEnd e = .ok (EncChannel.init, accept []) := by
  simp [encEnd, hst, hp, encFinish, EncChannel.init]

theorem encEnd_of_prefix {e : EncChannel} {k : Nat} (hst : e.st = .run) (hp : e.p ≠ [])
    (hk : ctFind e.ct e.p = some k) : encEnd e = .ok (EncChannel.init, accept [.code (codeOfIndex k)]) := by
  simp [encEnd, hst, hp, hk, encFinish, EncChannel.init]

/-! ## The whole next state -/

theorem onEnc_of_ok {f : EncChannel → Answer EncChannel} {s : State} {e : EncChannel} {r : Response}
    (h : f s.block.enc = .ok (e, r)) : onEnc f s = .next (s.answered e s.block.dec r) :=
  (onEnc_next_iff f s _).2 ⟨e, r, h, rfl⟩

/-- Settles O15: ENC.START has one branch. -/
theorem encStartBeginsACall : Obligations.EncStartBeginsACall := fun _ => onEnc_of_ok (f := encStart) rfl

/-- Settles O16: the branches of ENC.SYM, an empty prefix being a hit. -/
theorem encSymExtendsOrEmits : Obligations.EncSymExtendsOrEmits := by
  refine fun s c => ⟨fun hst => exec_of_enc_idle hst (.inr ⟨c, rfl⟩), fun hst hit => ?_, fun k hst miss hk => ?_,
    fun hst hp => ?_⟩
  · obtain ⟨j, hj⟩ := hit
    exact onEnc_of_ok (encSym_of_hit hst hj)
  · exact onEnc_of_ok (encSym_of_miss hst miss hk)
  · exact onEnc_of_ok (encSym_of_empty c hst hp)

/-- Settles O17: the branches of ENC.END. -/
theorem encEndFlushesThePrefix : Obligations.EncEndFlushesThePrefix :=
  fun _ => ⟨fun hst => exec_of_enc_idle hst (.inl rfl), fun hst hp => onEnc_of_ok (encEnd_of_empty hst hp),
    fun _ hst hp hk => onEnc_of_ok (encEnd_of_prefix hst hp hk)⟩

/-! ## What is emitted (R78) -/

/-- A table index fits the 16 bits of a code (R30). -/
theorem codeOfIndex_toNat {T : CodeTable} {k : Nat} (h : k < T.next) : (codeOfIndex k).toNat = k :=
  (BitVec.toNat_ofNat k 16).trans (Nat.mod_eq_of_lt (h.trans_le T.next_le))

/-- The code that stands for what CT.FIND found is populated and reads the sequence looked for. -/
theorem codeOfIndex_of_ctFind {T : CodeTable} {p : SymSeq} {k : Nat} (h : ctFind T p = some k) :
    (codeOfIndex k).toNat < T.next ∧ ctGet T (codeOfIndex k).toNat = some p := by
  have hget := ((ctFind_eq_some_iff T p k).1 h).1
  have hlt := lt_next_of_ctGet hget
  rw [codeOfIndex_toNat hlt]
  exact ⟨hlt, hget⟩

theorem encSym_emits_prefix {c : Symbol} {e e' : EncChannel} {k : Code}
    (h : encSym c e = .ok (e', accept [.code k])) : ∃ j, ctFind e.ct e.p = some j ∧ codeOfIndex j = k := by
  rcases encSym_cases h with ⟨_, _, hr⟩ | ⟨_, _, _, hr⟩ | ⟨j, _, _, hj, _, hr⟩ <;> cases hr
  exact ⟨j, hj, rfl⟩

theorem encEnd_emits_prefix {e e' : EncChannel} {k : Code}
    (h : encEnd e = .ok (e', accept [.code k])) : ∃ j, ctFind e.ct e.p = some j ∧ codeOfIndex j = k := by
  rcases encEnd_cases h with ⟨_, _, hr⟩ | ⟨_, _, _, hr⟩ | ⟨j, _, _, hj, _, hr⟩ <;> cases hr
  exact ⟨j, hj, rfl⟩

/-- A command that answers a next state and this response had its channel function answer it. -/
theorem onEnc_response {f : EncChannel → Answer EncChannel} {s t : State} {r : Response} (h : onEnc f s = .next t)
    (hr : t.host.responses = s.host.responses ++ [r]) : ∃ e, f s.block.enc = .ok (e, r) := by
  obtain ⟨e, r', he, rfl⟩ := (onEnc_next_iff f s t).1 h
  obtain rfl : r' = r := by simpa using hr
  exact ⟨e, he⟩

/-- Settles O18: only a miss and ENC.END emit a code, and both look the prefix up in the table as it stands. -/
theorem emittedCodesAreAssigned : Obligations.EmittedCodesAreAssigned := by
  intro i s t k hi h hr
  have hemit : ∃ j, ctFind s.block.enc.ct s.block.enc.p = some j ∧ codeOfIndex j = k := by
    rcases (Instr.piece_eq_enc_iff i).1 hi with rfl | rfl | ⟨c, rfl⟩
    · obtain ⟨e, he⟩ := onEnc_response (f := encStart) h hr
      cases he
    · obtain ⟨e, he⟩ := onEnc_response (f := encEnd) h hr
      exact encEnd_emits_prefix he
    · obtain ⟨e, he⟩ := onEnc_response (f := encSym c) h hr
      exact encSym_emits_prefix he
  obtain ⟨j, hj, rfl⟩ := hemit
  exact codeOfIndex_of_ctFind hj

/-! ## What is written (R63, R64) -/

/-- Away from the location CT.INSERT assigns, the table reads as after the table-reset test. -/
theorem ctGet_ctInsert_of_ne_code (T : CodeTable) (q : SymSeq) {k : Nat} (hk : k ≠ (ctInsert T q).1) :
    ctGet (ctInsert T q).2 k = if T.next = 65536 then ctGet CodeTable.initial k else ctGet T k := by
  rw [ctGet_ctInsert_of_ne T q hk]
  split
  case isTrue hfull => rw [ctMakeRoom_of_full hfull]
  case isFalse hroom => rw [ctMakeRoom_of_not_full hroom]

/-- Settles O19: a rejection and a hit keep the table, and a miss makes one insertion. -/
theorem encSymWritesOneLocation : Obligations.EncSymWritesOneLocation := by
  intro s t c h
  have hdec : t.block.dec = s.block.dec := exec_keeps_dec (by simp [Instr.piece_eq_dec_iff]) h
  obtain ⟨e, r, he, rfl⟩ := (onEnc_next_iff (encSym c) s t).1 h
  refine ⟨fun k => by rw [hdec], ?_⟩
  simp only [State.respond_block, State.setEnc_enc]
  rcases encSym_cases he with ⟨hst, rfl, _⟩ | ⟨_, hit, rfl, _⟩ | ⟨_, hst, miss, _, rfl, _⟩
  · exact ⟨fun _ _ => rfl, fun hrun => by simp [hst] at hrun⟩
  · exact ⟨fun _ _ => rfl, fun _ miss => by simp [miss] at hit⟩
  · refine ⟨fun hkeep => ?_, fun _ _ => ⟨ctGet_ctInsert_new _ _, fun k => ctGet_ctInsert_of_ne_code _ _⟩⟩
    rcases hkeep with hidle | hfound
    · simp [hst] at hidle
    · exact absurd miss hfound

end Sys2Proof.Machine
end

section
/-! PROOF. Every run from reset goes through (30_encoding.md R45; 70_reset_and_hazards.md R152), and E.p is empty or in the
table at its end (42_encoder.md R73). -/

namespace Sys2Proof.Machine

theorem run_answers (n : Nat) : ∀ {s : State}, s.Inv → ∃ t, run n s = .next t ∧ t.Inv := by
  induction n with
  | zero => exact fun hs => ⟨_, rfl, hs⟩
  | succ n ih =>
    intro s hs
    obtain ⟨u, hstep, hu⟩ := stepAnswersAndKeepsTheInvariants s hs
    obtain ⟨t, hrun, ht⟩ := ih hu
    exact ⟨t, (run_succ_next_iff n s t).2 ⟨u, hstep, hrun⟩, ht⟩

theorem issue_reset_answers (events : List HostEvent) : ∃ t, issue State.reset events = .next t ∧ t.Inv :=
  run_answers _ (invariantsHoldAtReset.of_block_eq rfl)

/-- Settles O35: the run goes through with the invariants, and they find a non-empty prefix. -/
theorem prefixIsAlwaysInTheTable : Obligations.PrefixIsAlwaysInTheTable := by
  intro events
  obtain ⟨t, ht, hinv⟩ := issue_reset_answers events
  exact ⟨t, ht, fun _ => or_iff_not_imp_left.2 hinv.enc.ctFind_prefix⟩

end Sys2Proof.Machine
end

section
/-! PROOF. A call's result is the same from every state (42_encoder.md R77; 43_decoder.md R88; 46_calls.md R115). Each of the
four programs is of one piece's commands, so two machines that agree on what the piece owns answer it alike; and a START
makes any two machines agree. -/

namespace Sys2Proof.Machine

/-! ## Two machines side by side -/

theorem concerns_encode {p : Piece} {i : Instr} : concerns p (.command (encode i)) = true ↔ i.piece = p :=
  concerns_of_ok (decodeOfEncodeIsTheCommand i)

theorem concerns_of_mem_commandEvents {p : Piece} {program : List Instr} (h : ∀ i ∈ program, i.piece = p) :
    ∀ e ∈ commandEvents program, concerns p e = true := by
  simpa [commandEvents, concerns_encode] using h

/-- The two machines have the same events to come, have answered alike, and agree on the piece's channel. -/
structure Agree {α : Type} (view : Block → α) (s u : State) : Prop where
  inputs : u.host.inputs = s.host.inputs
  responses : u.host.responses = s.host.responses
  view : view u.block = view s.block

/-- After the same event, taken with the same answer, they still have the same events to come and the same responses. -/
theorem Agree.of_took {α : Type} {view : Block → α} {e : HostEvent} {rest : List HostEvent} {o : Option Response}
    {s t u v : State} (h : u.host.responses = s.host.responses) (ht : Took e rest o s t) (hv : Took e rest o u v)
    (hview : view v.block = view t.block) : Agree view t v :=
  ⟨hv.inputs.trans ht.inputs.symm, by rw [hv.responses, ht.responses, h], hview⟩

section
variable {p : Piece} {α : Type} {view : Block → α}

/-- On a stream of the piece's own events the agreement lasts. -/
theorem Owns.run_agree (hp : Owns p view) (events : List HostEvent) (he : ∀ e ∈ events, concerns p e = true) :
    ∀ {s t u : State}, s.host.inputs = events → Agree view s u → run events.length s = .next t →
      ∃ v, run events.length u = .next v ∧ Agree view t v := by
  induction events with
  | nil =>
    intro s t u _ hagree h
    cases h
    exact ⟨u, rfl, hagree⟩
  | cons e events ih =>
    intro s t u hs hagree h
    obtain ⟨hhead, htail⟩ := List.forall_mem_cons.1 he
    obtain ⟨s', hstep, hrun⟩ := (run_succ_next_iff _ _ _).1 h
    obtain ⟨u', o, hstep', hview, hts, htu⟩ :=
      hp.step_of_concerns hhead hs (hagree.inputs.trans hs) hagree.view hstep
    obtain ⟨v, hv, hvt⟩ := ih htail hts.inputs (.of_took hagree.responses hts htu hview) hrun
    exact ⟨v, (run_succ_next_iff _ _ _).2 ⟨u', hstep', hv⟩, hvt⟩

/-- A call's result is told by the responses of its run, so it is the same wherever a run of its program ends in agreement
with the run from reset. -/
theorem call_eq_of_agree {β : Type} (item? : Item → Option β) {program : List Instr} {m : State}
    (h : ∀ t, issue State.reset (commandEvents program) = .next t →
      ∃ v, issue m (commandEvents program) = .next v ∧ Agree view t v) :
    call item? program m = call item? program State.reset := by
  obtain ⟨t, ht, _⟩ := issue_reset_answers (commandEvents program)
  obtain ⟨v, hv, hagree⟩ := h t ht
  simp [call, ht, hv, hagree.responses]

/-- From a machine whose channel is as after reset. -/
theorem Owns.call_eq_of_view (hp : Owns p view) {β : Type} (item? : Item → Option β) {program : List Instr}
    (hprogram : ∀ i ∈ program, i.piece = p) {m : State} (hm : view m.block = view State.reset.block) :
    call item? program m = call item? program State.reset :=
  call_eq_of_agree item? fun _ => hp.run_agree _ (concerns_of_mem_commandEvents hprogram) rfl ⟨rfl, rfl, hm⟩

/-- A command that leaves the channel and answers the same whatever the channel was. -/
def Opens (view : Block → α) (i : Instr) : Prop :=
  ∀ s u : State, ∃ t v r, exec i s = .next t ∧ exec i u = .next v ∧ view v.block = view t.block ∧
    t.host = s.host.collect r ∧ v.host = u.host.collect r

theorem Opens.step_agree {i : Instr} (hi : Opens view i) {rest : List HostEvent} {s u : State}
    (hs : s.host.inputs = .command (encode i) :: rest) (hu : u.host.inputs = .command (encode i) :: rest)
    (hresponses : u.host.responses = s.host.responses) :
    ∃ t v, step s = .next t ∧ step u = .next v ∧ t.host.inputs = rest ∧ Agree view t v := by
  obtain ⟨t, v, r, ht, hv, hview, hth, hvh⟩ := hi (s.withInputs rest) (u.withInputs rest)
  have hts := took_of_collect (w := encode i) hth
  refine ⟨t, v, ?_, ?_, hts.inputs, .of_took hresponses hts (took_of_collect hvh) hview⟩
  · rw [step_of_command hs (decodeOfEncodeIsTheCommand i), ht]
  · rw [step_of_command hu (decodeOfEncodeIsTheCommand i), hv]

/-- From every machine, where the program begins with such a command. -/
theorem Owns.call_eq_of_opens (hp : Owns p view) {β : Type} (item? : Item → Option β) {i : Instr} {program : List Instr}
    (hi : Opens view i) (hprogram : ∀ j ∈ program, j.piece = p) (m : State) :
    call item? (i :: program) m = call item? (i :: program) State.reset := by
  refine call_eq_of_agree (view := view) item? fun t ht => ?_
  obtain ⟨s, u, hs, hu, hin, hagree⟩ := hi.step_agree (s := State.reset.present (commandEvents (i :: program)))
    (u := m.present (commandEvents (i :: program))) rfl rfl rfl
  obtain ⟨s', hs', hrun⟩ := (run_succ_next_iff _ _ _).1 ht
  cases hs.symm.trans hs'
  obtain ⟨v, hv, hvt⟩ := hp.run_agree _ (concerns_of_mem_commandEvents hprogram) hin hagree hrun
  exact ⟨v, (run_succ_next_iff _ _ _).2 ⟨u, hu, hv⟩, hvt⟩

end

/-! ## The four programs -/

theorem opens_encStart : Opens Block.enc .encStart := fun _ _ => ⟨_, _, _, rfl, rfl, rfl, rfl, rfl⟩

theorem opens_decStart : Opens Block.dec .decStart := fun _ _ => ⟨_, _, _, rfl, rfl, rfl, rfl, rfl⟩

theorem Instr.piece_eq_stc_iff (i : Instr) : i.piece = .stc ↔ (∃ k, i = .stcPack k) ∨ ∃ u, i = .stcUnpack u := by
  cases i <;> simp [Instr.piece, Instr.mnemonic, Mnemonic.piece]

/-- STC owns nothing of the block (R92). -/
theorem owns_stc : Owns .stc fun _ => () where
  foreign := fun _ _ => rfl
  own := by
    intro i s t u hi _ h
    rcases (Instr.piece_eq_stc_iff i).1 hi with ⟨k, rfl⟩ | ⟨x, rfl⟩
    · cases h
      exact ⟨_, _, rfl, rfl, rfl, rfl⟩
    · cases h
      exact ⟨_, _, rfl, rfl, rfl, rfl⟩

theorem compressFrom_eq (m : State) (s : SymSeq) : compressFrom m s = compress s :=
  owns_enc.call_eq_of_opens _ opens_encStart (by simp [Instr.piece_eq_enc_iff, or_imp, forall_and]) m

theorem decompressFrom_eq (m : State) (ks : List Code) : decompressFrom m ks = decompress ks :=
  owns_dec.call_eq_of_opens _ opens_decStart (by simp [Instr.piece_eq_dec_iff, or_imp, forall_and]) m

theorem call_packProgram_eq (m : State) (ks : List Code) :
    call Item.unit? (packProgram ks) m = call Item.unit? (packProgram ks) State.reset :=
  owns_stc.call_eq_of_view _ (by simp [packProgram, Instr.piece_eq_stc_iff]) rfl

theorem call_unpackProgram_eq (m : State) (us : List TextUnit) :
    call Item.code? (unpackProgram us) m = call Item.code? (unpackProgram us) State.reset :=
  owns_stc.call_eq_of_view _ (by simp [unpackProgram, Instr.piece_eq_stc_iff]) rfl

/-- Settles O44: program by program, the string functions being made of two calls each. -/
theorem callsAreIndependentOfTheState : Obligations.CallsAreIndependentOfTheState := by
  refine fun m => ⟨compressFrom_eq m, decompressFrom_eq m, fun t => ?_, fun us => ?_⟩
  · simp only [compressToString, compressToStringFrom, compressFrom_eq, call_packProgram_eq m]
  · simp only [decompressString, decompressStringFrom, decompressFrom_eq, call_unpackProgram_eq m]

end Sys2Proof.Machine
end

section
/-! PROOF. A Compress call as a run of the encoder channel (42_encoder.md R74, R75): the ENC.SYM commands of a program are
followed on the channel alone, and what the machine then answers, and the call's value, are read off that. -/

namespace Sys2Proof.Machine

/-! ## Symbols fed one after another -/

/-- The ENC.SYM commands of these symbols take the channel from `e` to `e'` and give the responses `rs`. -/
inductive EncFeed : SymSeq → EncChannel → EncChannel → List Response → Prop
  | nil {e : EncChannel} : EncFeed [] e e []
  | cons {c : Symbol} {s : SymSeq} {e e₁ e' : EncChannel} {r : Response} {rs : List Response}
      (head : encSym c e = .ok (e₁, r)) (tail : EncFeed s e₁ e' rs) : EncFeed (c :: s) e e' (r :: rs)

/-- The encoder channel inside a call, with at least one symbol taken. -/
structure EncBusy (e : EncChannel) : Prop where
  inv : EncInv e
  run : e.st = .run
  p_ne_nil : e.p ≠ []

/-- What ENC.SYM can do in RUN: hit or miss (R71). -/
theorem encSym_run_cases {c : Symbol} {e e' : EncChannel} {r : Response} (hst : e.st = .run)
    (h : encSym c e = .ok (e', r)) :
    ((ctFind e.ct (e.p ++ [c])).isSome = true ∧ e' = { e with p := e.p ++ [c] } ∧ r = accept []) ∨
    (∃ k, ctFind e.ct (e.p ++ [c]) = none ∧ ctFind e.ct e.p = some k ∧
      e' = { e with ct := (ctInsert e.ct (e.p ++ [c])).2, p := [c] } ∧ r = accept [.code (codeOfIndex k)]) := by
  rcases encSym_cases h with ⟨hidle, _⟩ | ⟨_, hhit⟩ | ⟨k, _, hmiss⟩
  · simp [hst] at hidle
  · exact .inl hhit
  · exact .inr ⟨k, hmiss⟩

theorem encSym_keeps_busy {c : Symbol} {e e' : EncChannel} {r : Response} (he : EncBusy e)
    (h : encSym c e = .ok (e', r)) : EncBusy e' where
  inv := encSym_keeps_inv h he.inv
  run := (encSym_st h).trans he.run
  p_ne_nil := by
    rcases encSym_run_cases he.run h with ⟨_, rfl, _⟩ | ⟨_, _, _, rfl, _⟩ <;> simp

theorem EncFeed.keeps_busy {s : SymSeq} {e e' : EncChannel} {rs : List Response} (h : EncFeed s e e' rs)
    (he : EncBusy e) : EncBusy e' := by
  induction h with
  | nil => exact he
  | cons head _ ih => exact ih (encSym_keeps_busy he head)

/-- From a channel with the invariants every sequence of symbols can be fed. -/
theorem exists_encFeed (s : SymSeq) : ∀ {e : EncChannel}, EncInv e → ∃ e' rs, EncFeed s e e' rs := by
  induction s with
  | nil => exact fun _ => ⟨_, _, .nil⟩
  | cons c s ih =>
    intro e he
    obtain ⟨⟨e₁, r⟩, head⟩ := encSym_answers he c
    obtain ⟨e', rs, tail⟩ := ih (encSym_keeps_inv head he)
    exact ⟨e', r :: rs, .cons head tail⟩

/-! ## The machine's run -/

theorem run_append {m n : Nat} : ∀ {s t u : State}, run m s = .next t → run n t = .next u → run (m + n) s = .next u := by
  induction m with
  | zero =>
    intro s t u hm hn
    cases hm
    rwa [Nat.zero_add]
  | succ m ih =>
    intro s t u hm hn
    obtain ⟨s', hstep, hrun⟩ := (run_succ_next_iff m s t).1 hm
    rw [Nat.add_right_comm]
    exact (run_succ_next_iff _ s u).2 ⟨s', hstep, ih hrun hn⟩

/-- The step of an encoder command, every field of State named. -/
theorem step_enc {i : Instr} {f : EncChannel → Answer EncChannel} (hi : exec i = onEnc f) {e e' : EncChannel}
    {r : Response} (h : f e = .ok (e', r)) (d : DecChannel) (rest : List HostEvent) (rs : List Response) :
    step ⟨⟨e, d⟩, ⟨.command (encode i) :: rest, rs⟩⟩ = .next ⟨⟨e', d⟩, ⟨rest, rs ++ [r]⟩⟩ := by
  rw [step_of_command rfl (decodeOfEncodeIsTheCommand i), hi]
  exact onEnc_of_ok h

theorem EncFeed.run_eq {s : SymSeq} {e e' : EncChannel} {rs : List Response} (h : EncFeed s e e' rs) (d : DecChannel)
    (rest : List HostEvent) (rs₀ : List Response) :
    run s.length ⟨⟨e, d⟩, ⟨commandEvents (s.map .encSym) ++ rest, rs₀⟩⟩ = .next ⟨⟨e', d⟩, ⟨rest, rs₀ ++ rs⟩⟩ := by
  induction h generalizing rs₀ with
  | nil => simp [run, commandEvents]
  | @cons c s e e₁ e' r rs head tail ih =>
    refine (run_succ_next_iff _ _ _).2 ⟨_, step_enc (f := encSym c) rfl head d _ rs₀, ?_⟩
    have htail := ih (rs₀ ++ [r])
    rw [List.append_assoc] at htail
    exact htail

/-- What ENC.START leaves in the channel (R70). -/
def EncChannel.begun : EncChannel := { st := .run, p := [], ct := CodeTable.initial }

/-- The program up to ENC.END, whatever the host presents after it. -/
theorem EncFeed.run_feedEncoder {s : SymSeq} {e : EncChannel} {rs : List Response}
    (h : EncFeed s EncChannel.begun e rs) (m : State) (rest : List HostEvent) :
    run (s.length + 1) (m.present (commandEvents (feedEncoder s) ++ rest)) =
      .next ⟨⟨e, m.block.dec⟩, ⟨rest, accept [] :: rs⟩⟩ :=
  (run_succ_next_iff _ _ _).2
    ⟨_, step_enc (i := .encStart) (f := encStart) rfl rfl m.block.dec _ [], h.run_eq m.block.dec rest [accept []]⟩

theorem EncFeed.issue_feedEncoder {s : SymSeq} {e : EncChannel} {rs : List Response}
    (h : EncFeed s EncChannel.begun e rs) (m : State) :
    issue m (commandEvents (feedEncoder s)) = .next ⟨⟨e, m.block.dec⟩, ⟨[], accept [] :: rs⟩⟩ := by
  simpa [issue, commandEvents, feedEncoder] using h.run_feedEncoder m []

theorem EncFeed.issue_compressProgram {s : SymSeq} {e e' : EncChannel} {rs : List Response} {r : Response}
    (h : EncFeed s EncChannel.begun e rs) (hend : encEnd e = .ok (e', r)) (m : State) :
    issue m (commandEvents (compressProgram s)) = .next ⟨⟨e', m.block.dec⟩, ⟨[], accept [] :: rs ++ [r]⟩⟩ := by
  have hlast := step_enc (i := .encEnd) (f := encEnd) rfl hend m.block.dec [] (accept [] :: rs)
  simpa [issue, commandEvents, compressProgram, feedEncoder] using
    run_append (h.run_feedEncoder m [.command (encode .encEnd)])
      ((run_succ_next_iff 0 _ _).2 ⟨_, hlast, rfl⟩)

/-! ## The codes and the value of a call -/

/-- The codes the responses carry, in order. -/
def codesOf (rs : List Response) : List Code := (rs.flatMap fun r => r.out).filterMap Item.code?

@[simp] theorem codesOf_nil : codesOf [] = [] := rfl
@[simp] theorem codesOf_cons_empty (rs : List Response) : codesOf (accept [] :: rs) = codesOf rs := by
  simp [codesOf]
@[simp] theorem codesOf_cons_code (k : Code) (rs : List Response) :
    codesOf (accept [.code k] :: rs) = k :: codesOf rs := by
  simp [codesOf, Item.code?]
theorem codesOf_append (rs rs' : List Response) : codesOf (rs ++ rs') = codesOf rs ++ codesOf rs' := by
  simp [codesOf]

theorem resultOf_code_of_ok {rs : List Response} (h : ∀ r ∈ rs, r.status = .ok) :
    resultOf Item.code? rs = .value (codesOf rs) := by
  have hnone : rs.find? (fun r => decide (r.status ≠ .ok)) = none := List.find?_eq_none.2 (by simpa using h)
  rw [resultOf, hnone, codesOf]

theorem EncFeed.status_ok {s : SymSeq} {e e' : EncChannel} {rs : List Response} (h : EncFeed s e e' rs)
    (he : EncBusy e) : ∀ r ∈ rs, r.status = .ok := by
  induction h with
  | nil => simp
  | cons head _ ih =>
    refine List.forall_mem_cons.2 ⟨?_, ih (encSym_keeps_busy he head)⟩
    rcases encSym_run_cases he.run head with ⟨_, _, rfl⟩ | ⟨_, _, _, _, rfl⟩ <;> rfl

/-- The channel with the first symbol of a call taken (R74). -/
def EncChannel.holding (c : Symbol) : EncChannel := { st := .run, p := [c], ct := CodeTable.initial }

theorem encSym_begun (c : Symbol) : encSym c EncChannel.begun = .ok (EncChannel.holding c, accept []) :=
  encSym_of_empty c rfl rfl

theorem encBusy_holding (c : Symbol) : EncBusy (EncChannel.holding c) where
  inv := encSym_keeps_inv (encSym_begun c) (encInv_empty .run)
  run := rfl
  p_ne_nil := by simp [EncChannel.holding]

/-- A call on one symbol and more, from its second symbol on: the last code is that of the prefix ENC.END finds. -/
theorem compress_cons (c : Symbol) (s : SymSeq) :
    ∃ e rs k, EncFeed s (EncChannel.holding c) e rs ∧ ctFind e.ct e.p = some k ∧
      issue State.reset (commandEvents (feedEncoder (c :: s))) =
        .next ⟨⟨e, DecChannel.init⟩, ⟨[], accept [] :: accept [] :: rs⟩⟩ ∧
      compress (c :: s) = .value (codesOf rs ++ [codeOfIndex k]) := by
  have hbusy := encBusy_holding c
  obtain ⟨e, rs, hfeed⟩ := exists_encFeed s hbusy.inv
  have he := hfeed.keeps_busy hbusy
  obtain ⟨k, hk⟩ := he.inv.ctFind_prefix he.p_ne_nil
  have hcall : EncFeed (c :: s) EncChannel.begun e (accept [] :: rs) := .cons (encSym_begun c) hfeed
  refine ⟨e, rs, k, hfeed, hk, hcall.issue_feedEncoder State.reset, ?_⟩
  have hissue := hcall.issue_compressProgram (encEnd_of_prefix he.run he.p_ne_nil hk) State.reset
  have hok : ∀ r ∈ accept [] :: (accept [] :: rs) ++ [accept [.code (codeOfIndex k)]], r.status = .ok := by
    simpa [or_imp, forall_and] using hfeed.status_ok hbusy
  simp only [compress, compressFrom, call, hissue, resultOf_code_of_ok hok]
  simp [codesOf_append]

theorem compress_nil : compress [] = .value [] := by decide

end Sys2Proof.Machine
end

section
/-! PROOF. How many codes a call outputs (42_encoder.md R75; 46_calls.md R112): each ENC.SYM after the first hits or outputs
one code, and each code but the last comes with one insertion. -/

namespace Sys2Proof.Machine

theorem EncFeed.hits_add_codes {s : SymSeq} {e e' : EncChannel} {rs : List Response} (h : EncFeed s e e' rs)
    (he : EncBusy e) : (rs.countP fun r => decide (r.out = [])) + (codesOf rs).length = s.length := by
  induction h with
  | nil => rfl
  | cons head _ ih =>
    have hrest := ih (encSym_keeps_busy he head)
    rcases encSym_run_cases he.run head with ⟨_, _, rfl⟩ | ⟨_, _, _, _, rfl⟩ <;> simp <;> omega

/-- The table after the feed is that of a run of insertions, one for each code. -/
theorem EncFeed.table {s : SymSeq} {e e' : EncChannel} {rs : List Response} (h : EncFeed s e e' rs) (he : EncBusy e) :
    ∀ resets, ∃ qs : List SymSeq, qs.length = (codesOf rs).length ∧ e'.ct = (insertAll qs resets e.ct).2 := by
  induction h with
  | nil => exact fun _ => ⟨[], rfl, rfl⟩
  | cons head _ ih =>
    intro resets
    have htail := ih (encSym_keeps_busy he head)
    rcases encSym_run_cases he.run head with ⟨_, rfl, rfl⟩ | ⟨k, _, _, rfl, rfl⟩
    · simpa using htail resets
    · obtain ⟨qs, hlen, htable⟩ := htail _
      exact ⟨_ :: qs, by simp [hlen], htable⟩

/-- `next` after a run of insertions into the initial table (R65). -/
theorem insertAll_initial_next (qs : List SymSeq) :
    (insertAll qs 0 CodeTable.initial).2.next = if qs.length = 0 then 256 else 256 + (qs.length - 1) % 65280 + 1 := by
  rw [CodeTable.next_eq, (insertAll_initial qs).2, List.length_drop]
  split <;> omega

/-- Settles O49: the first symbol is the hit not counted by `h`, and ENC.END gives the code without an insertion. -/
theorem codeCountIsSymbolsLessHits : Obligations.CodeCountIsSymbolsLessHits := by
  refine ⟨compress_nil, fun s hs => ?_⟩
  obtain ⟨c, s, rfl⟩ := List.exists_cons_of_ne_nil hs
  obtain ⟨e, rs, k, hfeed, _, hissue, hcompress⟩ := compress_cons c s
  have hcount := hfeed.hits_add_codes (encBusy_holding c)
  obtain ⟨qs, hlen, htable⟩ := hfeed.table (encBusy_holding c) 0
  refine ⟨_, _, rs.countP fun r => decide (r.out = []), hissue, hcompress, by simp, by simp; omega, ?_⟩
  have hnext : e.ct.next = _ := (congrArg CodeTable.next htable).trans (insertAll_initial_next qs)
  rw [hlen] at hnext
  simpa using hnext

end Sys2Proof.Machine
end

section
/-! PROOF. When an input compresses to its own symbol codes (42_encoder.md R76). While every ENC.SYM misses, the prefix is
one symbol and the table holds the adjacent pairs so far; the next symbol hits exactly when its pair is among them. -/

namespace Sys2Proof.Machine

/-- A pair of symbols as the sequence a miss inserts. -/
def pairSeq (x : Symbol × Symbol) : SymSeq := [x.1, x.2]

theorem pairSeq_injective : Function.Injective pairSeq := by
  rintro ⟨a, b⟩ ⟨c, d⟩ h
  simpa [pairSeq] using h

/-- A pair is found exactly when it was inserted: no seed has two symbols. -/
theorem ctFind_pairSeq_isSome_iff (T : CodeTable) (x : Symbol × Symbol) :
    (ctFind T (pairSeq x)).isSome = true ↔ pairSeq x ∈ T.assigned := by
  refine ⟨fun h => ?_, ctFind_isSome_of_mem⟩
  obtain ⟨k, hk⟩ := (ctFind_isSome_iff T _).1 h
  exact mem_assigned_of_ctGet hk le_rfl

theorem adjacentPairs_cons_cons (c d : Symbol) (s : SymSeq) :
    adjacentPairs (c :: d :: s) = (c, d) :: adjacentPairs (d :: s) := rfl

/-- Below the ceiling the insertion appends to what is there. -/
theorem ctInsert_assigned_of_room {T : CodeTable} (h : T.assigned.length < 65280) (q : SymSeq) :
    (ctInsert T q).2.assigned = T.assigned ++ [q] := by
  rw [ctInsert_assigned, ctMakeRoom_of_not_full (by rw [T.next_eq]; omega)]

/-- From a one-symbol prefix, with room for a pair per symbol: every ENC.SYM misses exactly when the pairs to come are new
and different. -/
theorem EncFeed.all_miss_iff {s : SymSeq} {e e' : EncChannel} {rs : List Response} (h : EncFeed s e e' rs) :
    ∀ {c : Symbol}, EncBusy e → e.p = [c] → e.ct.assigned.length + s.length ≤ 65280 →
      ((codesOf rs).length = s.length ↔ (e.ct.assigned ++ (adjacentPairs (c :: s)).map pairSeq).Nodup) := by
  induction h with
  | nil =>
    intro c he _ _
    simpa [adjacentPairs] using he.inv.distinct
  | @cons d s e e₁ e' r rs head tail ih =>
    intro c he hp hroom
    have he₁ := encSym_keeps_busy he head
    have hq : e.p ++ [d] = pairSeq (c, d) := by rw [hp]; rfl
    rw [List.length_cons] at hroom
    rw [adjacentPairs_cons_cons, List.map_cons]
    rcases encSym_run_cases he.run head with ⟨hit, rfl, rfl⟩ | ⟨k, _, _, rfl, rfl⟩
    · rw [hq, ctFind_pairSeq_isSome_iff] at hit
      have hcount := tail.hits_add_codes he₁
      refine iff_of_false ?_ fun hnodup => ?_
      · simp only [codesOf_cons_empty, List.length_cons]
        omega
      · exact (List.nodup_append.1 hnodup).2.2 _ hit _ List.mem_cons_self rfl
    · have hassigned := ctInsert_assigned_of_room (T := e.ct) (by omega) (e.p ++ [d])
      have htail := ih (c := d) he₁ rfl (by simp only [hassigned, List.length_append, List.length_singleton]; omega)
      rw [hassigned, hq, List.append_assoc, List.singleton_append] at htail
      simpa using htail

/-- The code of a single symbol has the symbol's value (R58). -/
theorem codeOfIndex_of_ctFind_singleton {T : CodeTable} {c : Symbol} {k : Nat} (h : ctFind T [c] = some k) :
    codeOfIndex k = codeOfSymbol c := by
  obtain rfl := Option.some.inj ((ctFind_singleton T c).symm.trans h)
  exact BitVec.ofNat_toNat 16 c

/-- Where every ENC.SYM misses, the codes are those of the symbols, the last one that of the prefix left. -/
theorem EncFeed.codes_of_all_miss {s : SymSeq} {e e' : EncChannel} {rs : List Response} (h : EncFeed s e e' rs) :
    ∀ {c : Symbol} {k : Nat}, EncBusy e → e.p = [c] → ctFind e'.ct e'.p = some k → (codesOf rs).length = s.length →
      codesOf rs ++ [codeOfIndex k] = (c :: s).map codeOfSymbol := by
  induction h with
  | nil =>
    intro c k _ hp hk _
    rw [hp] at hk
    simp [codeOfIndex_of_ctFind_singleton hk]
  | @cons d s e e₁ e' r rs head tail ih =>
    intro c k he hp hk hlen
    have he₁ := encSym_keeps_busy he head
    rcases encSym_run_cases he.run head with ⟨_, _, rfl⟩ | ⟨j, _, hj, rfl, rfl⟩
    · have hcount := tail.hits_add_codes he₁
      simp only [codesOf_cons_empty, List.length_cons] at hlen
      omega
    · rw [hp] at hj
      have htail := ih (c := d) he₁ rfl hk (by simpa using hlen)
      rw [codesOf_cons_code, List.cons_append, htail, codeOfIndex_of_ctFind_singleton hj]
      rfl

/-- Settles O50: the call gives as many codes as symbols exactly when every ENC.SYM after the first misses. -/
theorem noRepeatedPairCompressesToItself : Obligations.NoRepeatedPairCompressesToItself := by
  intro s hs
  cases s with
  | nil => simp [compress_nil, adjacentPairs]
  | cons c s =>
    obtain ⟨e, rs, k, hfeed, hk, _, hcompress⟩ := compress_cons c s
    have hbusy := encBusy_holding c
    have hmiss := hfeed.all_miss_iff (c := c) hbusy rfl (by simpa [EncChannel.holding] using Nat.le_of_succ_le_succ hs)
    rw [show (EncChannel.holding c).ct.assigned = [] from rfl, List.nil_append,
      List.nodup_map_iff pairSeq_injective] at hmiss
    rw [hcompress, CallResult.value.injEq, ← hmiss]
    refine ⟨fun h => ?_, hfeed.codes_of_all_miss hbusy rfl hk⟩
    simpa using congrArg List.length h

end Sys2Proof.Machine
end

section
/-! PROOF. The decoder's commands one by one (43_decoder.md R80 to R83; 60_exceptions.md R126): an equation per branch, from
which the whole next state of a command follows; when DEC.CODE raises DecodeError, and what it writes. -/

namespace Sys2Proof.Machine

/-! ## The steps of DEC.CODE -/

/-- `next` after step (a), the `n` of R83. -/
theorem decMakeRoom_next (d : DecChannel) :
    (decMakeRoom d).next = if d.pv = true ∧ d.ct.next = 65536 then 256 else d.ct.next :=
  apply_ite CodeTable.next _ _ _

theorem decResolve_of_get {T : CodeTable} (pv : Bool) (prev : SymSeq) {k : Code} {entry : SymSeq}
    (hget : ctGet T k.toNat = some entry) : decResolve T pv prev k = .ok (some entry) := by
  rw [decResolve, if_pos (lt_next_of_ctGet hget), hget]

theorem decResolve_of_next {T : CodeTable} {prev : SymSeq} {k : Code} {c : Symbol} {rest : SymSeq}
    (hk : k.toNat = T.next) (hprev : prev = c :: rest) : decResolve T true prev k = .ok (some (prev ++ [c])) := by
  rw [decResolve, if_neg hk.not_lt, if_pos ⟨hk, rfl⟩, hprev, firstSymbol]

theorem decResolve_of_unresolvable {T : CodeTable} {pv : Bool} (prev : SymSeq) {k : Code}
    (hk : T.next < k.toNat ∨ k.toNat = T.next ∧ pv = false) : decResolve T pv prev k = .ok none := by
  rw [decResolve, if_neg (by omega), if_neg]
  rintro ⟨heq, hpv⟩
  rcases hk with hlt | ⟨_, hpv'⟩
  · exact hlt.ne' heq
  · simp [hpv] at hpv'

/-- R83: the codes that step (b) does not resolve. -/
theorem decResolve_eq_none_iff {T : CodeTable} {pv : Bool} {prev : SymSeq} {k : Code} {o : Option SymSeq}
    (h : decResolve T pv prev k = .ok o) : o = none ↔ T.next < k.toNat ∨ k.toNat = T.next ∧ pv = false := by
  refine ⟨?_, fun hk => Except.ok.inj (h.symm.trans (decResolve_of_unresolvable prev hk))⟩
  rintro rfl
  rcases decResolve_cases h with ⟨_, _, hsome⟩ | ⟨_, _, _, _, _, hsome⟩ | ⟨hk, _⟩
  · simp at hsome
  · simp at hsome
  · exact hk

/-! ## The branches of the three commands -/

theorem decCode_of_entry {d : DecChannel} {k : Code} {entry : SymSeq} {U : CodeTable} (hst : d.st = .run)
    (hres : decResolve (decMakeRoom d) d.pv d.prev k = .ok (some entry))
    (hgrow : decGrow (decMakeRoom d) d.pv d.prev entry = .ok U) :
    decCode k d = .ok ({ st := .run, pv := true, prev := entry, ct := U }, accept (entry.map .symbol)) := by
  simp [decCode, hst, decCodeRun, hres, hgrow, decOutput]

theorem decCode_of_unresolved {d : DecChannel} {k : Code} (hst : d.st = .run)
    (hres : decResolve (decMakeRoom d) d.pv d.prev k = .ok none) :
    decCode k d = .ok ({ st := .err, pv := false, prev := [], ct := CodeTable.initial }, reject .errDecode) := by
  simp [decCode, hst, decCodeRun, hres, raiseDecodeError]

/-- What DEC.CODE can do in RUN: raise DecodeError, or output an entry (R81). -/
theorem decCode_run_cases {k : Code} {d d' : DecChannel} {r : Response} (hst : d.st = .run)
    (h : decCode k d = .ok (d', r)) :
    (decResolve (decMakeRoom d) d.pv d.prev k = .ok none ∧
      d' = { st := .err, pv := false, prev := [], ct := CodeTable.initial } ∧ r = reject .errDecode) ∨
    (∃ entry U, decResolve (decMakeRoom d) d.pv d.prev k = .ok (some entry) ∧
      decGrow (decMakeRoom d) d.pv d.prev entry = .ok U ∧
      d' = { d with pv := true, prev := entry, ct := U } ∧ r = accept (entry.map .symbol)) := by
  rcases decCode_cases h with ⟨hidle, _⟩ | ⟨herr, _⟩ | ⟨_, hraise⟩ | ⟨entry, U, _, hout⟩
  · simp [hst] at hidle
  · simp [hst] at herr
  · exact .inl hraise
  · exact .inr ⟨entry, U, hout⟩

theorem decEnd_of_run {d : DecChannel} (hst : d.st = .run) : decEnd d = .ok (DecChannel.init, accept []) := by
  simp [decEnd, hst, DecChannel.init]

/-! ## The whole next state -/

theorem onDec_of_ok {f : DecChannel → Answer DecChannel} {s : State} {d : DecChannel} {r : Response}
    (h : f s.block.dec = .ok (d, r)) : onDec f s = .next (s.answered s.block.enc d r) :=
  (onDec_next_iff f s _).2 ⟨d, r, h, rfl⟩

/-- Settles O20: DEC.START has one branch. -/
theorem decStartBeginsACall : Obligations.DecStartBeginsACall := fun _ => onDec_of_ok (f := decStart) rfl

/-- Settles O21: the branches of DEC.CODE, step (b) reading the entry, the self-referential sequence, or nothing. -/
theorem decCodeResolvesInsertsAndOutputs : Obligations.DecCodeResolvesInsertsAndOutputs := by
  rintro s k d T rfl (rfl : T = decMakeRoom s.block.dec)
  refine ⟨fun hst => exec_of_dec_idle hst (.inr ⟨k, rfl⟩), fun hst => exec_of_dec_err hst (.inr ⟨k, rfl⟩),
    fun entry hst hpv hget => ?_, fun c rest hst hpv hget => ?_, fun c rest hst hpv hk hprev => ?_,
    fun hst hk => ?_⟩
  · exact onDec_of_ok (decCode_of_entry hst (decResolve_of_get _ _ hget) (by rw [hpv]; rfl))
  · exact onDec_of_ok (decCode_of_entry hst (decResolve_of_get _ _ hget) (by rw [hpv]; rfl))
  · refine onDec_of_ok (decCode_of_entry hst ?_ ?_)
    · rw [hpv]
      exact decResolve_of_next hk hprev
    · rw [hpv, hprev]
      rfl
  · exact onDec_of_ok (decCode_of_unresolved hst (decResolve_of_unresolvable _ hk))

/-- Settles O23: the branches of DEC.END. -/
theorem decEndClosesTheCall : Obligations.DecEndClosesTheCall :=
  fun _ => ⟨fun hst => exec_of_dec_idle hst (.inl rfl), fun hst => exec_of_dec_err hst (.inl rfl),
    fun hst => onDec_of_ok (decEnd_of_run hst)⟩

/-! ## When DEC.CODE fails (R83) -/

/-- Settles O22: the response and the next control state tell whether step (b) resolved the code. -/
theorem decodeErrorExactlyWhenUnresolvable : Obligations.DecodeErrorExactlyWhenUnresolvable := by
  rintro s k n hinv hst hn
  rw [← decMakeRoom_next] at hn
  obtain ⟨⟨d, r⟩, hd⟩ := decCode_answers hinv k
  refine ⟨_, r, onDec_of_ok (f := decCode k) hd, rfl, ?_⟩
  have hcompl : (k.toNat < n ∨ k.toNat = n ∧ s.block.dec.pv = true) ↔
      ¬ (n < k.toNat ∨ k.toNat = n ∧ s.block.dec.pv = false) := by
    cases s.block.dec.pv <;> simp <;> omega
  rw [hcompl, hn]
  rcases decCode_run_cases hst hd with ⟨hres, rfl, rfl⟩ | ⟨entry, U, hres, _, rfl, rfl⟩
  · simp [State.answered, ← decResolve_eq_none_iff hres]
  · simp [State.answered, ← decResolve_eq_none_iff hres, hst]

/-! ## What is written (R63, R64) -/

/-- Settles O24: the decoder is in RUN only after an output, which makes one insertion or, without a `previous`, none. -/
theorem decCodeWritesOneLocation : Obligations.DecCodeWritesOneLocation := by
  intro s t k h
  have henc : t.block.enc = s.block.enc := exec_keeps_enc (by simp [Instr.piece_eq_enc_iff]) h
  obtain ⟨d, r, hd, rfl⟩ := (onDec_next_iff (decCode k) s t).1 h
  refine ⟨fun j => by rw [henc], ?_⟩
  simp only [State.respond_block, State.setDec_dec]
  rcases decCode_cases hd with ⟨hst, rfl, _⟩ | ⟨hst, rfl, _⟩ | ⟨_, _, rfl, _⟩ | ⟨entry, U, _, _, hgrow, rfl, _⟩
  · simp [hst]
  · simp [hst]
  · simp
  · rw [decMakeRoom_eq] at hgrow ⊢
    rcases decGrow_cases hgrow with ⟨hpv, rfl⟩ | ⟨c, rest, hpv, rfl, rfl⟩
    · simp [hpv]
    · simp only [hpv, if_true, ctInsert_ctMakeRoom]
      exact ⟨by simp, fun _ _ => ⟨⟨c, rest, rfl, ctGet_ctInsert_new _ _⟩,
        fun j hj => ctGet_ctInsert_of_ne_code _ _ hj⟩⟩

end Sys2Proof.Machine
end

section
/-! PROOF. A Decompress call as a run of the decoder channel (43_decoder.md R80 to R82, R87): a program of decoder commands is
followed on the channel alone, and what the machine then answers, and the call's value, are read off that. -/

namespace Sys2Proof.Machine

/-! ## Decoder commands one after another -/

/-- The decoder commands of the program take the channel from `d` to `d'` and give the responses `rs`. -/
inductive DecRun : List Instr → DecChannel → DecChannel → List Response → Prop
  | nil {d : DecChannel} : DecRun [] d d []
  | cons {i : Instr} {f : DecChannel → Answer DecChannel} {program : List Instr} {d d₁ d' : DecChannel} {r : Response}
      {rs : List Response} (meaning : exec i = onDec f) (head : f d = .ok (d₁, r)) (tail : DecRun program d₁ d' rs) :
      DecRun (i :: program) d d' (r :: rs)

theorem DecRun.append {p q : List Instr} {d d₁ d' : DecChannel} {rs rs' : List Response} (h : DecRun p d d₁ rs)
    (h' : DecRun q d₁ d' rs') : DecRun (p ++ q) d d' (rs ++ rs') := by
  induction h with
  | nil => exact h'
  | cons meaning head _ ih => exact .cons meaning head (ih h')

theorem decRun_code {k : Code} {d d' : DecChannel} {r : Response} (h : decCode k d = .ok (d', r)) :
    DecRun [.decCode k] d d' [r] := .cons (f := decCode k) rfl h .nil

theorem DecRun.run_eq {program : List Instr} {d d' : DecChannel} {rs : List Response} (h : DecRun program d d' rs)
    (e : EncChannel) (rs₀ : List Response) :
    run program.length ⟨⟨e, d⟩, ⟨commandEvents program, rs₀⟩⟩ = .next ⟨⟨e, d'⟩, ⟨[], rs₀ ++ rs⟩⟩ := by
  induction h generalizing rs₀ with
  | nil => simp [run, commandEvents]
  | @cons i f program d d₁ d' r rs meaning head _ ih =>
    refine (run_succ_next_iff _ _ _).2 ⟨⟨⟨e, d₁⟩, ⟨commandEvents program, rs₀ ++ [r]⟩⟩, ?_, ?_⟩
    · rw [step_of_command rfl (decodeOfEncodeIsTheCommand i), meaning]
      exact onDec_of_ok head
    · simpa using ih (rs₀ ++ [r])

theorem DecRun.issue_eq {program : List Instr} {d : DecChannel} {rs : List Response} {m : State}
    (h : DecRun program m.block.dec d rs) :
    issue m (commandEvents program) = .next ⟨⟨m.block.enc, d⟩, ⟨[], rs⟩⟩ := by
  rw [issue, commandEvents, List.length_map]
  exact h.run_eq m.block.enc []

/-! ## A call -/

/-- What DEC.START leaves in the channel (R80). -/
def DecChannel.begun : DecChannel := { st := .run, pv := false, prev := [], ct := CodeTable.initial }

theorem DecRun.after_decStart {ks : List Code} {d' : DecChannel} {rs : List Response}
    (h : DecRun (ks.map .decCode) DecChannel.begun d' rs) (d : DecChannel) :
    DecRun (feedDecoder ks) d d' (accept [] :: rs) := .cons (f := decStart) rfl rfl h

/-- From a channel with the invariants every code can be fed, and a channel in RUN stays there while the answers are OK. -/
theorem exists_decRun_codes (ks : List Code) : ∀ {d : DecChannel}, DecInv d →
    ∃ d' rs, DecRun (ks.map .decCode) d d' rs ∧ DecInv d' ∧
      (d.st = .run → (∀ r ∈ rs, r.status = .ok) → d'.st = .run) := by
  induction ks with
  | nil => exact fun hd => ⟨_, _, .nil, hd, fun hst _ => hst⟩
  | cons k ks ih =>
    intro d hd
    obtain ⟨⟨d₁, r⟩, head⟩ := decCode_answers hd k
    obtain ⟨d', rs, tail, hd', hrun⟩ := ih (decCode_keeps_inv head hd)
    refine ⟨d', r :: rs, .cons (f := decCode k) rfl head tail, hd', fun hst hok => ?_⟩
    obtain ⟨hr, hrs⟩ := List.forall_mem_cons.1 hok
    exact hrun ((decCode_st head).trans (by simp [nextDecSt, hst, hr])) hrs

/-- The items of one kind the responses carry, in order; `codesOf` gives those that are codes. -/
def itemsOf {α : Type} (item? : Item → Option α) (rs : List Response) : List α :=
  (rs.flatMap fun r => r.out).filterMap item?

@[simp] theorem itemsOf_nil {α : Type} (item? : Item → Option α) : itemsOf item? [] = [] := rfl

theorem itemsOf_append {α : Type} (item? : Item → Option α) (rs rs' : List Response) :
    itemsOf item? (rs ++ rs') = itemsOf item? rs ++ itemsOf item? rs' := by
  simp [itemsOf]

@[simp] theorem itemsOf_cons_empty {α : Type} (item? : Item → Option α) (rs : List Response) :
    itemsOf item? (accept [] :: rs) = itemsOf item? rs := by
  simp [itemsOf]

/-- A call has a value exactly when every answer is OK (R105, R106). -/
theorem resultOf_eq_value_iff {α : Type} (item? : Item → Option α) (rs : List Response) (items : List α) :
    resultOf item? rs = .value items ↔ (∀ r ∈ rs, r.status = .ok) ∧ itemsOf item? rs = items := by
  unfold resultOf
  split
  case h_1 r hfind =>
    have hmem := List.mem_of_find?_eq_some hfind
    have hbad := List.find?_some hfind
    simp only [decide_eq_true_eq] at hbad
    exact iff_of_false (by simp) fun h => hbad (h.1 r hmem)
  case h_2 hfind =>
    have hok : ∀ r ∈ rs, r.status = .ok := by simpa using hfind
    rw [CallResult.value.injEq, and_iff_right hok, itemsOf]

/-- The value of a call is read off the answers to its codes and the one to its DEC.END. -/
theorem DecRun.decompress_eq {ks : List Code} {d d' : DecChannel} {rs : List Response} {r : Response}
    (h : DecRun (ks.map .decCode) DecChannel.begun d rs) (hend : decEnd d = .ok (d', r)) :
    decompress ks = resultOf Item.symbol? (accept [] :: rs ++ [r]) := by
  have hcall : DecRun (decompressProgram ks) DecChannel.init d' (accept [] :: rs ++ [r]) :=
    (h.after_decStart _).append (.cons (f := decEnd) rfl hend .nil)
  have hissue : issue State.reset (commandEvents (decompressProgram ks)) = _ := hcall.issue_eq
  rw [decompress, decompressFrom, call, hissue]

/-- Where every code is answered OK the call has a value. -/
theorem DecRun.decompress_of_ok {ks : List Code} {d : DecChannel} {rs : List Response}
    (h : DecRun (ks.map .decCode) DecChannel.begun d rs) (hst : d.st = .run) (hok : ∀ r ∈ rs, r.status = .ok) :
    decompress ks = .value (itemsOf Item.symbol? rs) := by
  rw [h.decompress_eq (decEnd_of_run hst), resultOf_eq_value_iff]
  simpa [or_imp, forall_and, itemsOf_append] using hok

/-- Settles O51: the first codes are answered as in the longer call, and what the later ones output comes after. -/
theorem cutStreamDecodesToAPrefix : Obligations.CutStreamDecodesToAPrefix := by
  intro ks ls cs hcs
  obtain ⟨d, rs, hks, hd, hrun⟩ := exists_decRun_codes ks (decInv_empty .run)
  obtain ⟨d', rs', hls, -, -⟩ := exists_decRun_codes ls hd
  obtain ⟨⟨d'', r⟩, hend⟩ := decEnd_answers d'
  have hboth : DecRun ((ks ++ ls).map .decCode) DecChannel.begun d' (rs ++ rs') := by
    rw [List.map_append]
    exact hks.append hls
  rw [hboth.decompress_eq hend, resultOf_eq_value_iff] at hcs
  obtain ⟨hok, rfl⟩ := hcs
  have hok₁ : ∀ r ∈ rs, r.status = .ok := fun r hr => hok r (by simp [hr])
  refine ⟨_, hks.decompress_of_ok (hrun rfl hok₁) hok₁, ?_⟩
  simp [itemsOf_append]

end Sys2Proof.Machine
end

section
/-! PROOF. The decoder mirrors the encoder (43_decoder.md R84; 20_memory.md R33). The encoder inserts when it puts out a code,
the decoder when it takes the next one, so the decoder's table is one insertion behind: what is missing is the insertion the
decoder makes in step (c) for an entry that begins as the encoder's prefix does. -/

namespace Sys2Proof.Machine

/-- The decoder has taken every code the encoder put out, and step (c) for the encoder's prefix would give the encoder's
table. -/
structure Mirrors (d : DecChannel) (e : EncChannel) : Prop where
  run : d.st = .run
  /-- a `previous` has a first symbol for the self-referential code (R16) -/
  prev_ne_nil : d.pv = true → d.prev ≠ []
  /-- the insertion still to be made (R84) -/
  grow : decGrow (decMakeRoom d) d.pv d.prev e.p = .ok e.ct

/-- The answer to a code that resolves to this entry. -/
def entryOut (entry : SymSeq) : Response := accept (entry.map .symbol)

theorem itemsOf_map_entryOut (entries : List SymSeq) :
    itemsOf Item.symbol? (entries.map entryOut) = entries.flatten := by
  induction entries with
  | nil => rfl
  | cons entry entries ih =>
    have hhead : (entry.map Item.symbol).filterMap Item.symbol? = entry := by
      rw [List.filterMap_map]
      exact List.filterMap_some
    simpa [itemsOf, entryOut, hhead] using ih

/-- Step (c) looks at the first symbol of the entry only. -/
theorem decGrow_append (T : CodeTable) (pv : Bool) (prev : SymSeq) {p : SymSeq} (hp : p ≠ []) (q : SymSeq) :
    decGrow T pv prev (p ++ q) = decGrow T pv prev p := by
  obtain ⟨c, rest, rfl⟩ := List.exists_cons_of_ne_nil hp
  rfl

/-- A code that reads an entry after step (c) for that entry resolves to it before step (c): where it is the very code step
(c) assigns, the entry is the self-referential one. -/
theorem decResolve_of_decGrow {d : DecChannel} (hprev : d.pv = true → d.prev ≠ []) {entry : SymSeq} {U : CodeTable}
    (hgrow : decGrow (decMakeRoom d) d.pv d.prev entry = .ok U) {k : Code} (hget : ctGet U k.toNat = some entry) :
    decResolve (decMakeRoom d) d.pv d.prev k = .ok (some entry) := by
  rcases decGrow_cases hgrow with ⟨_, rfl⟩ | ⟨c, rest, hpv, hentry, rfl⟩
  · exact decResolve_of_get _ _ hget
  · have hroom : ctMakeRoom (decMakeRoom d) = decMakeRoom d := by
      rw [decMakeRoom_eq, if_pos hpv, ctMakeRoom_idem]
    by_cases hk : k.toNat = (ctMakeRoom (decMakeRoom d)).next
    · rw [hk, ctGet_ctInsert_new, Option.some.injEq, hentry] at hget
      obtain ⟨b, bs, hb⟩ := List.exists_cons_of_ne_nil (hprev hpv)
      obtain rfl : b = c := by
        rw [hb] at hget
        exact (List.cons.inj hget).1
      rw [hpv, hentry, ← hget]
      exact decResolve_of_next (hk.trans (congrArg _ hroom)) hb
    · rw [ctGet_ctInsert_of_ne _ _ hk, hroom] at hget
      exact decResolve_of_get _ _ hget

/-- Given the code of the encoder's prefix, the decoder outputs the prefix and has the encoder's table. -/
theorem Mirrors.decCode_prefix {d : DecChannel} {e : EncChannel} (h : Mirrors d e) {k : Nat}
    (hk : ctFind e.ct e.p = some k) :
    decCode (codeOfIndex k) d = .ok ({ st := .run, pv := true, prev := e.p, ct := e.ct }, entryOut e.p) :=
  decCode_of_entry h.run (decResolve_of_decGrow h.prev_ne_nil h.grow (codeOfIndex_of_ctFind hk).2) h.grow

theorem Mirrors.hit {d : DecChannel} {e : EncChannel} (h : Mirrors d e) (hp : e.p ≠ []) (c : Symbol) :
    Mirrors d { e with p := e.p ++ [c] } where
  run := h.run
  prev_ne_nil := h.prev_ne_nil
  grow := (decGrow_append _ _ _ hp [c]).trans h.grow

/-- After a miss the decoder, which has taken the old prefix's code, lacks the insertion just made. -/
theorem mirrors_miss {e : EncChannel} (hp : e.p ≠ []) (c : Symbol) :
    Mirrors { st := .run, pv := true, prev := e.p, ct := e.ct }
      { e with ct := (ctInsert e.ct (e.p ++ [c])).2, p := [c] } where
  run := rfl
  prev_ne_nil := fun _ => hp
  grow := by
    rw [decMakeRoom_eq, if_pos rfl, ← ctInsert_ctMakeRoom e.ct]
    rfl

/-- Fed with the codes put out, the decoder keeps up with the encoder, and lacks of the symbols only the prefix. -/
theorem EncFeed.mirrored {s : SymSeq} {e e' : EncChannel} {rs : List Response} (h : EncFeed s e e' rs) :
    ∀ {d : DecChannel}, EncBusy e → Mirrors d e →
      ∃ d', ∃ entries : List SymSeq, DecRun ((codesOf rs).map .decCode) d d' (entries.map entryOut) ∧ Mirrors d' e' ∧
        entries.flatten ++ e'.p = e.p ++ s := by
  induction h with
  | nil => exact fun {d} _ hm => ⟨d, [], .nil, hm, by simp⟩
  | @cons c s e e₁ e' r rs head _ ih =>
    intro d he hm
    have he₁ := encSym_keeps_busy he head
    rcases encSym_run_cases he.run head with ⟨_, rfl, rfl⟩ | ⟨k, _, hk, rfl, rfl⟩
    · obtain ⟨d', entries, hrun, hm', hsyms⟩ := ih he₁ (hm.hit he.p_ne_nil c)
      exact ⟨d', entries, by simpa using hrun, hm', by simpa using hsyms⟩
    · obtain ⟨d', entries, hrun, hm', hsyms⟩ := ih he₁ (mirrors_miss he.p_ne_nil c)
      refine ⟨d', e.p :: entries, ?_, hm', by simp [hsyms]⟩
      rw [codesOf_cons_code]
      exact .cons (f := decCode _) rfl (hm.decCode_prefix hk) hrun

theorem mirrors_begun (c : Symbol) : Mirrors DecChannel.begun (EncChannel.holding c) where
  run := rfl
  prev_ne_nil := by simp [DecChannel.begun]
  grow := rfl

/-- Settles O46: the last code is that of the prefix ENC.END finds, and taking it brings the decoder level. -/
theorem decoderMirrorsTheEncoder : Obligations.DecoderMirrorsTheEncoder := by
  intro s t ks hs ht hks
  obtain ⟨c, s, rfl⟩ := List.exists_cons_of_ne_nil hs
  obtain ⟨e, rs, k, hfeed, hk, hissue, hcompress⟩ := compress_cons c s
  cases hissue.symm.trans ht
  cases hcompress.symm.trans hks
  obtain ⟨d, entries, hrun, hm, hsyms⟩ := hfeed.mirrored (encBusy_holding c) (mirrors_begun c)
  have hcodes := hrun.append (decRun_code (hm.decCode_prefix hk))
  have hall : DecRun (feedDecoder (codesOf rs ++ [codeOfIndex k])) State.reset.block.dec _
      (accept [] :: (entries ++ [e.p]).map entryOut) :=
    DecRun.after_decStart (by simpa using hcodes) _
  refine ⟨_, hall.issue_eq, (resultOf_eq_value_iff _ _ _).2 ⟨?_, ?_⟩, rfl⟩
  · simp [or_imp, forall_and, entryOut]
  · rw [itemsOf_cons_empty, itemsOf_map_entryOut]
    simpa [EncChannel.holding] using hsyms

end Sys2Proof.Machine
end

section
/-! PROOF. The String Transport Codec (44_string_transport.md R90 to R92): a command that only answers, with one item, leaves
the block alone, so a program of such commands gives the items one by one, in order, from every state. -/

namespace Sys2Proof.Machine

/-! ## One command -/

theorem answerOnly_eq_answered (s : State) (r : Response) :
    answerOnly s r = .next (s.answered s.block.enc s.block.dec r) := rfl

/-- Settles O27: STC.PACK only answers, and `PACK` keeps the value. -/
theorem stcPackGivesTheUnitOfTheValue : Obligations.StcPackGivesTheUnitOfTheValue := fun s k =>
  answerOnly_eq_answered s (accept [.unit (pack k)])

/-- Settles O28: STC.UNPACK only answers, and `UNPACK` keeps the value. -/
theorem stcUnpackGivesTheCodeOfTheValue : Obligations.StcUnpackGivesTheCodeOfTheValue := fun s u =>
  answerOnly_eq_answered s (accept [.code (unpack u)])

/-! ## A sequence of commands -/

/-- The command made of each value only answers, with the one item made of that value. -/
def AnswersOneItem (command : BitVec 16 → Instr) (item : BitVec 16 → Item) : Prop :=
  ∀ (s : State) (v : BitVec 16),
    exec (command v) s = .next (s.answered s.block.enc s.block.dec (accept [item v]))

section
variable {command : BitVec 16 → Instr} {item : BitVec 16 → Item} (h : AnswersOneItem command item)
include h

theorem AnswersOneItem.run_eq (vs : List (BitVec 16)) (b : Block) (rs₀ : List Response) :
    run vs.length ⟨b, ⟨commandEvents (vs.map command), rs₀⟩⟩ =
      .next ⟨b, ⟨[], rs₀ ++ vs.map fun v => accept [item v]⟩⟩ := by
  induction vs generalizing rs₀ with
  | nil => simp [run, commandEvents]
  | cons v vs ih =>
    refine (run_succ_next_iff _ _ _).2 ⟨⟨b, ⟨commandEvents (vs.map command), rs₀ ++ [accept [item v]]⟩⟩, ?_, ?_⟩
    · rw [step_of_command rfl (decodeOfEncodeIsTheCommand (command v))]
      exact h _ v
    · simpa using ih (rs₀ ++ [accept [item v]])

theorem AnswersOneItem.issue_eq (vs : List (BitVec 16)) (m : State) :
    issue m (commandEvents (vs.map command)) = .next ⟨m.block, ⟨[], vs.map fun v => accept [item v]⟩⟩ := by
  have hlength : (commandEvents (vs.map command)).length = vs.length := by simp [commandEvents]
  rw [issue, hlength]
  exact h.run_eq vs m.block []

/-- A call that reads each item back as the value it was made of returns the values given (R92). -/
theorem AnswersOneItem.call_eq {item? : Item → Option (BitVec 16)} (hread : ∀ v, item? (item v) = some v) (m : State)
    (vs : List (BitVec 16)) : call item? (vs.map command) m = .value vs := by
  have hitems : itemsOf item? (vs.map fun v => accept [item v]) = vs := by
    simp [itemsOf, accept, List.flatMap_map, List.filterMap_flatMap, hread]
  rw [call, h.issue_eq]
  exact (resultOf_eq_value_iff _ _ _).2 ⟨by simp, hitems⟩

end

theorem call_packProgram (m : State) (ks : List Code) : call Item.unit? (packProgram ks) m = .value ks :=
  AnswersOneItem.call_eq stcPackGivesTheUnitOfTheValue (fun _ => rfl) m ks

theorem call_unpackProgram (m : State) (us : List TextUnit) : call Item.code? (unpackProgram us) m = .value us :=
  AnswersOneItem.call_eq stcUnpackGivesTheCodeOfTheValue (fun _ => rfl) m us

/-- Settles O29: each program returns the values it was made of, so the second takes up the first's. -/
theorem transportIsABijectionOnSequences : Obligations.TransportIsABijectionOnSequences := by
  refine fun m m' vs => ⟨call_packProgram m vs, call_unpackProgram m vs, ?_⟩
  rw [call_packProgram]
  exact call_unpackProgram m' vs

end Sys2Proof.Machine
end

section
/-! PROOF. The status read and its two registers (45_status.md R100 to R102): RD.STAT only answers, and a status word is read
as the number `PV * 2^26 + ST * 2^24 + NEXT`, from which each field is read back; at rest the invariants fix all three. -/

namespace Sys2Proof.Machine

/-- Settles O30: RD.STAT only answers, with the register its selector names. -/
theorem rdStatReadsTheSelectedRegister : Obligations.RdStatReadsTheSelectedRegister := fun s =>
  ⟨answerOnly_eq_answered s (accept [.word (estat s.block)]), answerOnly_eq_answered s (accept [.word (dstat s.block)])⟩

/-! ## The status word as a number -/

@[simp] theorem CodeTable.full_iff (T : CodeTable) : T.full = true ↔ T.next = 65536 := decide_eq_true_iff

theorem toNat_append_eq_add {v w : Nat} (x : BitVec v) (y : BitVec w) :
    (x ++ y).toNat = x.toNat * 2 ^ w + y.toNat := by
  rw [BitVec.toNat_append, ← Nat.shiftLeft_add_eq_or_of_lt y.isLt, Nat.shiftLeft_eq]

section
variable (pv : Bool) (st : BitVec 2) (T : CodeTable)

theorem statusWord_toNat : (statusWord pv st T.next).toNat = pv.toNat * 2 ^ 26 + st.toNat * 2 ^ 24 + T.next := by
  have hnext : T.next < 2 ^ 17 := Nat.lt_of_le_of_lt T.next_le (by decide)
  simp only [statusWord, toNat_append_eq_add, BitVec.toNat_ofNat, BitVec.toNat_ofBool, Nat.mod_eq_of_lt hnext]
  omega

/-! ## The fields -/

theorem statusWord_next : (statusWord pv st T.next).toNat % 2 ^ 17 = T.next := by
  have := T.next_le
  rw [statusWord_toNat]
  omega

/-- NEXT is at most 65536, so its bit 16 is set for that value alone. -/
theorem statusWord_full : (statusWord pv st T.next).getLsbD 16 = T.full := by
  have := T.next_le
  rw [Bool.eq_iff_iff, T.full_iff, ← BitVec.testBit_toNat, Nat.testBit_eq_decide_div_mod_eq, decide_eq_true_eq,
    statusWord_toNat]
  omega

theorem statusWord_zero_middle : (statusWord pv st T.next).toNat / 2 ^ 17 % 2 ^ 7 = 0 := by
  have := T.next_le
  rw [statusWord_toNat]
  omega

theorem statusWord_st : (statusWord pv st T.next).toNat / 2 ^ 24 % 4 = st.toNat := by
  have := T.next_le
  have := st.isLt
  rw [statusWord_toNat]
  omega

theorem statusWord_pv : (statusWord pv st T.next).toNat / 2 ^ 26 % 2 = pv.toNat := by
  have := T.next_le
  have := st.isLt
  have := pv.toNat_lt
  rw [statusWord_toNat]
  omega

theorem statusWord_zero_top : (statusWord pv st T.next).toNat / 2 ^ 27 = 0 := by
  have := T.next_le
  have := st.isLt
  have := pv.toNat_lt
  rw [statusWord_toNat]
  omega

end

/-! ## The registers -/

/-- PV of ESTAT as a number (R20). -/
theorem EncChannel.hasPrefix_toNat (e : EncChannel) : e.hasPrefix.toNat = if e.p = [] then 0 else 1 := by
  by_cases h : e.p = [] <;> simp [EncChannel.hasPrefix, h]

theorem estat_of_idle {b : Block} (he : EncInv b.enc) (hst : b.enc.st = .idle) : estat b = 0x00000100#32 := by
  rw [estat, he.idle hst]
  rfl

/-- Outside RUN the control state alone fixes DSTAT. -/
theorem dstat_of_resting {b : Block} (hd : DecInv b.dec) (hst : b.dec.st ≠ .run) :
    dstat b = statusWord false b.dec.st.bits 256 := by
  obtain ⟨hpv, _, hct⟩ := hd.canonical_of_resting hst
  rw [dstat, hpv, hct, CodeTable.initial_next]

/-- Settles O31: the fields are those of a status word, and in IDLE the channel is the reset channel. -/
theorem estatFields : Obligations.EstatFields := fun b =>
  ⟨statusWord_next _ _ _, statusWord_full _ _ _, b.enc.ct.full_iff, statusWord_zero_middle _ _ _,
    (statusWord_st _ _ _).trans (by cases b.enc.st <;> rfl), (statusWord_pv _ _ _).trans (EncChannel.hasPrefix_toNat _),
    statusWord_zero_top _ _ _, rfl, estat_of_idle⟩

/-- Settles O32: the fields are those of a status word, and without a `previous` the table is the initial one. -/
theorem dstatFields : Obligations.DstatFields := by
  refine fun b => ⟨statusWord_next _ _ _, statusWord_full _ _ _, b.dec.ct.full_iff, statusWord_zero_middle _ _ _,
    (statusWord_st _ _ _).trans (by cases b.dec.st <;> rfl), (statusWord_pv _ _ _).trans (Bool.cond_eq_ite ..),
    statusWord_zero_top _ _ _, rfl, fun hd hst => ?idle, fun hd hst => ?err, fun hd _ hpv => ?run⟩
  case idle =>
    rw [dstat_of_resting hd (by simp [hst]), hst]
    rfl
  case err =>
    rw [dstat_of_resting hd (by simp [hst]), hst]
    rfl
  case run =>
    obtain ⟨_, hct⟩ := hd.absent hpv
    rw [hct, CodeTable.initial_next]

end Sys2Proof.Machine
end

section
/-! PROOF. The round trip (46_calls.md R109, R114). At the end of the codes the decoder has mirrored the encoder, so the call
that DEC.END closes returns the input; the string functions are the code functions, since packing and unpacking return the
values they are given (R107, R108). -/

namespace Sys2Proof.Machine

/-! ## Compress and Decompress -/

theorem decompress_nil : decompress [] = .value [] := by decide

theorem exists_compress_eq_value (s : SymSeq) : ∃ ks, compress s = .value ks := by
  cases s with
  | nil => exact ⟨_, compress_nil⟩
  | cons c s =>
    obtain ⟨_, _, _, _, _, _, hcompress⟩ := compress_cons c s
    exact ⟨_, hcompress⟩

/-- A call that is OK up to its DEC.END has its value there already: DEC.END answers OK and outputs nothing. -/
theorem decompress_of_feedDecoder {ks : List Code} {cs : List Symbol} {u : State}
    (hu : issue State.reset (commandEvents (feedDecoder ks)) = .next u)
    (hcs : resultOf Item.symbol? u.host.responses = .value cs) : decompress ks = .value cs := by
  obtain ⟨d, rs, hfeed, -, hrun⟩ := exists_decRun_codes ks (decInv_empty .run)
  cases (hfeed.after_decStart State.reset.block.dec).issue_eq.symm.trans hu
  obtain ⟨hok, hitems⟩ := (resultOf_eq_value_iff _ _ _).1 hcs
  obtain ⟨-, hok⟩ := List.forall_mem_cons.1 hok
  rw [itemsOf_cons_empty] at hitems
  rw [hfeed.decompress_of_ok (hrun rfl hok) hok, hitems]

theorem decompress_of_compress {s : SymSeq} {ks : List Code} (h : compress s = .value ks) : decompress ks = .value s := by
  cases s with
  | nil =>
    cases compress_nil.symm.trans h
    exact decompress_nil
  | cons c s =>
    obtain ⟨_, _, _, _, _, hissue, _⟩ := compress_cons c s
    obtain ⟨_, hu, hvalue, _⟩ := decoderMirrorsTheEncoder (c :: s) _ ks (by simp) hissue h
    exact decompress_of_feedDecoder hu hvalue

/-! ## The string functions -/

/-- Each unit has the value of its code (R92). -/
theorem compressToString_of_compress {s : SymSeq} {ks : List Code} (h : compress s = .value ks) :
    compressToString s = .value ks := by
  rw [compressToString, compressToStringFrom, show compressFrom State.reset s = .value ks from h]
  exact call_packProgram State.reset ks

/-- Each code has the value of its unit, and each character that of its symbol (R92, R94). -/
theorem decompressString_eq (us : List TextUnit) :
    decompressString us = (decompress us).andThen fun cs => .value (cs.map charOfSymbol) := by
  rw [decompressString, decompressStringFrom, call_unpackProgram]
  rfl

/-- Settles O45: Compress always has a value, which Decompress takes back, and the string functions follow. -/
theorem roundTripGivesTheInputBack : Obligations.RoundTripGivesTheInputBack := by
  intro s
  obtain ⟨ks, hks⟩ := exists_compress_eq_value s
  have hback := decompress_of_compress hks
  refine ⟨⟨ks, hks, hback⟩, ks, compressToString_of_compress hks, ?_⟩
  rw [decompressString_eq, hback]
  rfl

end Sys2Proof.Machine
end

section
/-! PROOF. What a Decompress call returns (46_calls.md R106; 60_exceptions.md R127, R128). Once a code has failed, the decoder
is in ERR and echoes ERR_DECODE to the end of the call, DEC.END included; so DEC.END answers OK only where every code was
answered OK. The string functions carry both results over. -/

namespace Sys2Proof.Machine

/-- Inside a call DEC.CODE answers OK or ERR_DECODE, and leaves the channel in RUN only from RUN with OK. -/
theorem decCode_tells {k : Code} {d d' : DecChannel} {r : Response} (h : decCode k d = .ok (d', r)) (hst : d.st ≠ .idle) :
    d'.st ≠ .idle ∧ (r.status = .ok ∨ r.status = .errDecode) ∧ (d'.st = .run → d.st = .run ∧ r.status = .ok) := by
  rcases decCode_cases h with ⟨hidle, _⟩ | ⟨herr, rfl, rfl⟩ | ⟨_, _, rfl, rfl⟩ | ⟨_, _, hrun, _, _, rfl, rfl⟩
  · exact absurd hidle hst
  · simp [herr]
  · simp
  · simp [hrun]

/-- The same of a list of codes. -/
theorem exists_decRun_codes_tell (ks : List Code) : ∀ {d : DecChannel}, DecInv d → d.st ≠ .idle →
    ∃ d' rs, DecRun (ks.map .decCode) d d' rs ∧ d'.st ≠ .idle ∧
      (∀ r ∈ rs, r.status = .ok ∨ r.status = .errDecode) ∧
      (d'.st = .run → d.st = .run ∧ ∀ r ∈ rs, r.status = .ok) := by
  induction ks with
  | nil => exact fun _ hst => ⟨_, [], .nil, hst, by simp, fun hrun => ⟨hrun, by simp⟩⟩
  | cons k ks ih =>
    intro d hd hst
    obtain ⟨⟨d₁, r⟩, head⟩ := decCode_answers hd k
    obtain ⟨hst₁, hr, hback₁⟩ := decCode_tells head hst
    obtain ⟨d', rs, tail, hst', hrs, hback⟩ := ih (decCode_keeps_inv head hd) hst₁
    refine ⟨d', r :: rs, .cons (f := decCode k) rfl head tail, hst', List.forall_mem_cons.2 ⟨hr, hrs⟩, fun hrun' => ?_⟩
    obtain ⟨hrun₁, hoks⟩ := hback hrun'
    obtain ⟨hrun, hok⟩ := hback₁ hrun₁
    exact ⟨hrun, List.forall_mem_cons.2 ⟨hok, hoks⟩⟩

/-- Where no answer but OK and ERR_DECODE occurs, the first answer that is not OK makes the call a DecodeError (R106). -/
theorem resultOf_eq_decodeError {α : Type} (item? : Item → Option α) {rs : List Response}
    (hrs : ∀ r ∈ rs, r.status = .ok ∨ r.status = .errDecode) {r : Response} (hr : r ∈ rs) (hbad : r.status ≠ .ok) :
    resultOf item? rs = CallResult.decodeError := by
  unfold resultOf
  split
  case h_1 r' hfind =>
    have hbad' : r'.status ≠ .ok := by simpa using List.find?_some hfind
    exact congrArg CallResult.failed ((hrs r' (List.mem_of_find?_eq_some hfind)).resolve_left hbad')
  case h_2 hfind => exact absurd (decide_eq_true hbad) (List.find?_eq_none.1 hfind r hr)

/-- Settles O52: DEC.END finds the channel in RUN, every code answered OK, or in ERR, and then echoes the failure. -/
theorem decEndTellsTheCallsResult : Obligations.DecEndTellsTheCallsResult := by
  intro ks
  obtain ⟨d, rs, hfeed, hst, hrs, hback⟩ := exists_decRun_codes_tell ks (decInv_empty .run) (by simp)
  obtain ⟨⟨d', r⟩, hend⟩ := decEnd_answers d
  have hcall : DecRun (decompressProgram ks) State.reset.block.dec d' (accept [] :: rs ++ [r]) :=
    (hfeed.after_decStart _).append (.cons (f := decEnd) rfl hend .nil)
  refine ⟨_, accept [] :: rs, r, hcall.issue_eq, rfl, ?_⟩
  rcases decEnd_cases hend with ⟨hidle, _⟩ | ⟨_, _, rfl⟩ | ⟨hrun, _, rfl⟩
  · exact absurd hidle hst
  · refine .inr ⟨rfl, ?_⟩
    rw [hfeed.decompress_eq hend]
    refine resultOf_eq_decodeError _ ?_ (r := reject .errDecode) (by simp) (by simp)
    simpa [or_imp, forall_and] using hrs
  · exact .inl ⟨rfl, _, hfeed.decompress_of_ok hrun (hback hrun).2⟩

/-- Settles O53: Compress always has a value, and Decompress one or DecodeError. -/
theorem stringFunctionsAreTheCodeFunctions : Obligations.StringFunctionsAreTheCodeFunctions := by
  refine ⟨fun s => ?_, fun us => ?_⟩
  · obtain ⟨ks, hks⟩ := exists_compress_eq_value s
    exact ⟨ks, hks, compressToString_of_compress hks⟩
  · rw [decompressString_eq]
    obtain ⟨_, _, _, _, _, ⟨_, cs, hcs⟩ | ⟨_, herror⟩⟩ := decEndTellsTheCallsResult us
    · rw [hcs]
      exact .inl ⟨cs, rfl, rfl⟩
    · rw [herror]
      exact .inr ⟨rfl, rfl⟩

end Sys2Proof.Machine
end

section
/-! PROOF. The inputs the source fixes (46_calls.md R110, R111): the empty one, the literal vectors, and the strings without a
repeated pair. What Compress gives for a string of literals is computed; CompressToString gives the same values. -/

namespace Sys2Proof.Machine

/-- Settles O47: the code functions compute it, and the string functions follow them. -/
theorem emptyInputGivesEmptyOutput : Obligations.EmptyInputGivesEmptyOutput := by
  refine ⟨compress_nil, decompress_nil, compressToString_of_compress compress_nil, ?_⟩
  rw [decompressString_eq, decompress_nil]
  rfl

/-- "taratata" (R111). -/
theorem compress_taratata :
    compress [116#8, 97#8, 114#8, 97#8, 116#8, 97#8, 116#8, 97#8] =
      .value [116#16, 97#16, 114#16, 97#16, 256#16, 256#16] := by decide

/-- "TOBEORNOTTOBEORTOBEORNOT" (R111). -/
theorem compress_tobeornot :
    compress [84#8, 79#8, 66#8, 69#8, 79#8, 82#8, 78#8, 79#8, 84#8, 84#8, 79#8, 66#8, 69#8, 79#8, 82#8, 84#8,
        79#8, 66#8, 69#8, 79#8, 82#8, 78#8, 79#8, 84#8] =
      .value [84#16, 79#16, 66#16, 69#16, 79#16, 82#16, 78#16, 79#16, 84#16, 256#16, 258#16, 260#16, 265#16, 259#16,
        261#16, 263#16] := by decide

/-- Settles O48: the two strings computed, and the strings without a repeated pair by R76. -/
theorem sourceVectorsMatchExactly : Obligations.SourceVectorsMatchExactly :=
  ⟨compress_taratata, compressToString_of_compress compress_taratata, compressToString_of_compress compress_tobeornot,
    fun s hlength hpairs => compressToString_of_compress ((noRepeatedPairCompressesToItself s hlength).2 hpairs)⟩

end Sys2Proof.Machine
end

section
/-! PROOF. The exceptional answers (60_exceptions.md R122, R123, R127, R128, R134): what changes nothing of the block, and
the ERR state, which only DEC.START and RESET end. For the latter the stream is cut down to the decoder's own events, which
are then DEC.CODE and DEC.END only, and each of these is echoed. -/

namespace Sys2Proof.Machine

/-! ## Nothing changes: no event, an illegal word, a command out of sequence -/

/-- Settles O10: the step without an event is the wait. -/
theorem withoutAnEventTheStateHolds : Obligations.WithoutAnEventTheStateHolds := fun _ => step_of_no_event

/-- The decoder rejects a word that is the command of no row (R49, R52). -/
theorem rejected_of_no_row {w : CommandWord} (h : ∀ r ∈ opcodeMap, w &&& r.mask ≠ r.pattern) :
    ∃ x, decode w = .error x := by
  rcases hw : decode w with x | i
  · exact ⟨x, rfl⟩
  · obtain ⟨r, hr, _, hmatch⟩ := (decoderFollowsTheOpcodeMap.1 w i.mnemonic).1 ⟨i, hw, rfl⟩
    exact absurd hmatch (h r hr)

/-- Settles O6: the decoder rejects the word, and the step of a rejected word only answers. -/
theorem illegalWordChangesNothing : Obligations.IllegalWordChangesNothing := by
  intro s w rest hin hrow
  obtain ⟨x, hw⟩ := rejected_of_no_row hrow
  exact step_of_illegal hin hw

/-- Settles O26: each channel's IDLE state rejects its own two commands. -/
theorem outOfSequenceIsRejected : Obligations.OutOfSequenceIsRejected := by
  rintro s i (⟨hst, hi⟩ | ⟨hst, hi⟩)
  · exact exec_of_enc_idle hst hi
  · exact exec_of_dec_idle hst hi

/-! ## The ERR state (R127, R128) -/

/-- The events that ERR echoes: a DEC.CODE or DEC.END word. -/
def Echoed (e : HostEvent) : Prop := ∃ i, (i = .decEnd ∨ ∃ k, i = .decCode k) ∧ e = .command (encode i)

/-- Of the events that concern the decoder, all but RESET and DEC.START are echoed. -/
theorem echoed_of_concerns {e : HostEvent} (he : concerns .dec e = true) (hreset : e ≠ .reset)
    (hstart : e ≠ .command (encode .decStart)) : Echoed e := by
  rcases e with _ | w
  · exact absurd rfl hreset
  · rcases hw : decode w with x | i
    · simp [not_concerns_of_illegal hw] at he
    · obtain rfl := (decode_eq_ok_iff w i).1 hw
      rcases (Instr.piece_eq_dec_iff i).1 (concerns_encode.1 he) with rfl | hi
      · exact absurd rfl hstart
      · exact ⟨i, hi, rfl⟩

theorem step_of_echoed {s : State} {e : HostEvent} {rest : List HostEvent} (hst : s.block.dec.st = .err)
    (hin : s.host.inputs = e :: rest) (he : Echoed e) :
    step s = .next ((s.withInputs rest).respond (reject .errDecode)) := by
  obtain ⟨i, hi, rfl⟩ := he
  rw [step_of_command hin (decodeOfEncodeIsTheCommand i)]
  exact exec_of_dec_err hst hi

/-- The machine with the decoder channel `d`, only echoed events to come, and only echoes collected. -/
structure Echoing (d : DecChannel) (s : State) : Prop where
  dec : s.block.dec = d
  inputs : ∀ e ∈ s.host.inputs, Echoed e
  responses : ∀ r ∈ s.host.responses, r = reject .errDecode

/-- While `d` is in ERR, every step echoes. -/
theorem step_keeps_echoing {d : DecChannel} (hd : d.st = .err) (s t : State) (h : step s = .next t) (hs : Echoing d s) :
    Echoing d t := by
  rcases hin : s.host.inputs with _ | ⟨e, rest⟩
  · cases (step_of_no_event hin).symm.trans h
    exact hs
  · obtain ⟨he, hrest⟩ := List.forall_mem_cons.1 (hin ▸ hs.inputs)
    cases (step_of_echoed (hs.dec ▸ hd) hin he).symm.trans h
    exact ⟨hs.dec, hrest, List.forall_mem_append.2 ⟨hs.responses, List.forall_mem_singleton.2 rfl⟩⟩

/-- Settles O25: the decoder's part of the stream has the same effect on its channel and the same responses (R40), and it
is echoed event by event. -/
theorem errIsLeftOnlyByStartOrReset : Obligations.ErrIsLeftOnlyByStartOrReset := by
  intro m events hst hevents t ht
  obtain ⟨u, hu, hdec, hresponses⟩ := owns_dec.issue_filter ht
  have hstart : Echoing m.block.dec (m.present (events.filter (concerns .dec))) := by
    refine ⟨rfl, fun e he => ?_, by simp⟩
    obtain ⟨hmem, hconcerns⟩ := List.mem_filter.1 he
    obtain ⟨hreset, hdecStart⟩ := hevents e hmem
    exact echoed_of_concerns hconcerns hreset hdecStart
  have hend : Echoing m.block.dec u := run_keeps (step_keeps_echoing hst) _ _ _ hu hstart
  exact ⟨hdec.symm.trans hend.dec, hresponses ▸ hend.responses⟩

end Sys2Proof.Machine
end

section
/-! PROOF. RESET (70_reset_and_hazards.md R140): after it both channels are in IDLE with the initial table, of which the
reads give the seeds and nothing else (10_state.md R26). -/

namespace Sys2Proof.Machine

/-- Settles O9: the step on RESET, the fields of the two reset channels, the reads of the initial table that both hold, and
the status words of two channels in IDLE. -/
theorem resetLeavesTheListedValues : Obligations.ResetLeavesTheListedValues := by
  obtain ⟨henc, hdec⟩ := invariantsHoldAtReset
  obtain ⟨hseeds, -, habsent, -⟩ := getReadsBelowNext CodeTable.initial
  refine ⟨fun s rest hin => step_of_reset hin, rfl, rfl, rfl, rfl, rfl, rfl, rfl,
    fun k hk => ⟨hseeds k hk, hseeds k hk⟩, fun k hk => ⟨habsent k hk, habsent k hk⟩, estat_of_idle henc rfl, ?dstat⟩
  case dstat =>
    rw [dstat_of_resting hdec (by simp)]
    rfl

end Sys2Proof.Machine
end
